-- ==== Sys2Proof/Word.lean ====
section
/-! DEFINITION. The word types of the CORE: the byte, the 16-byte State in its flat and nested forms, and the
command and response words (00_scope.md R5, R6, R9; 30_encoding.md R60, R61). -/

namespace Sys2Proof

/-- A Byte: 8 bits, unsigned, bit 0 the least significant (R5, R6). -/
abbrev Byte := BitVec 8

/-- The spec's `State` in its flat form: 16 bytes in column-major order, byte `k = r + 4c` (R9, R42).
It is called Block here because `State` is the name of the machine's own state. -/
abbrev Block := Vector Byte 16

/-- The spec's `State` as a 4×4 matrix of bytes, row first: `st[r][c]` (R9). -/
abbrev Matrix := Vector (Vector Byte 4) 4

/-- One column of a State, from row 0 down (R171). -/
abbrev Column := Vector Byte 4

/-- An 8×8 bit matrix, held as its row bytes: `M[i][j]` is bit j of row byte i (R120). -/
abbrev BitMatrix := Vector Byte 8

/-- The 152-bit command word CMD (R60). -/
abbrev CmdWord := BitVec 152

/-- The 138-bit response word RSP (R61). -/
abbrev RspWord := BitVec 138

end Sys2Proof
end

