-- ==== Sys2Proof/Syntax.lean ====
section
/-! DEFINITION. The nine operations of the CORE, one constructor per row of the opcode table, each with the operand
fields it reads (30_encoding.md R66). A field an operation does not read is no part of the instruction (R69). -/

namespace Sys2Proof

/-- An instruction: the operation OP selects, with the operands it reads (R66, R68). -/
inductive Instr where
  /-- GF.DBL, OP 0x01: field doubling of A (R104). -/
  | gfDbl (a : Byte)
  /-- GF.MUL, OP 0x02: field product of A and B (R105). -/
  | gfMul (a : Byte) (b : Byte)
  /-- AFF.FWD.G, OP 0x03: forward affine transform of A, general strategy (R124). -/
  | affFwdG (a : Byte)
  /-- AFF.FWD.S, OP 0x13: forward affine transform of A, specialized strategy (R125). -/
  | affFwdS (a : Byte)
  /-- AFF.INV.G, OP 0x04: inverse affine transform of A, general strategy (R126). -/
  | affInvG (a : Byte)
  /-- AFF.INV.S, OP 0x14: inverse affine transform of A, specialized strategy (R127). -/
  | affInvS (a : Byte)
  /-- SHR.G, OP 0x05: row permutation of S, rotate-by-index strategy (R153). -/
  | shrG (st : Block)
  /-- SHR.S, OP 0x15: row permutation of S, fixed-index-table strategy (R154). -/
  | shrS (st : Block)
  /-- MIXC, OP 0x06: column mixing of S (R172). -/
  | mixc (st : Block)
  deriving DecidableEq, Repr

end Sys2Proof
end

