-- ==== Sys2Proof/Decode.lean ====
section
/-! DEFINITION. The command word's fields and State lanes, decode (total over every word), the table of what each
operation reads and writes, the encoder, and decode as the opcode table numbers the bits (30_encoding.md R60, R62, R63 to R67, R71, R74). -/

namespace Sys2Proof

/-- Decode rejects a word by name. -/
inductive DecodeError where
  /-- The OP byte is none of the nine (R67): ILLEGAL_OP with that byte (R204). -/
  | illegalOp (op : Byte)
  deriving DecidableEq, Repr

/-- OP = CMD[7:0] (R60). -/
def fieldOP (w : CmdWord) : Byte := w.extractLsb' 0 8

/-- A = CMD[15:8] (R60). -/
def fieldA (w : CmdWord) : Byte := w.extractLsb' 8 8

/-- B = CMD[23:16] (R60). -/
def fieldB (w : CmdWord) : Byte := w.extractLsb' 16 8

/-- The 16 byte lanes of a 128-bit State field: lane k is bits [8k+7:8k] (R43, R62). -/
def lanesOf (x : BitVec 128) : Block := Vector.ofFn fun k => x.extractLsb' (8 * k.val) 8

/-- The 128-bit State field of 16 byte lanes: lane 0 is the least significant byte (R43, R62). -/
def packLanes (f : Block) : BitVec 128 :=
  (List.finRange 16).foldl (fun (x : BitVec 128) (k : Fin 16) => x ||| f[k].setWidth 128 <<< (8 * k.val)) 0

/-- S = CMD[151:24] as byte lanes: `S_k(cmd) = CMD[24+8k+7 : 24+8k]` (R60, R62). -/
def fieldS (w : CmdWord) : Block := lanesOf (w.extractLsb' 24 128)

/-- The command word with these four fields (R60). -/
def packCmd (op a b : Byte) (s : Block) : CmdWord :=
  op.setWidth 152 ||| (a.setWidth 152 <<< 8) ||| (b.setWidth 152 <<< 16) ||| ((packLanes s).setWidth 152 <<< 24)

/-- A State of 16 zero bytes: the S field of a command that does not read S (R74). -/
def zeroBlock : Block := Vector.replicate 16 0

/-- Decode by the OP byte alone (R67, R71): nine values select an operation, the other 247 are illegal. A and B are
used as they are, S as 16 lanes, and a field the operation does not read is dropped (R68, R69). -/
def decode (w : CmdWord) : Except DecodeError Instr :=
  let op := fieldOP w
  if op = 0x01 then .ok (.gfDbl (fieldA w))
  else if op = 0x02 then .ok (.gfMul (fieldA w) (fieldB w))
  else if op = 0x03 then .ok (.affFwdG (fieldA w))
  else if op = 0x13 then .ok (.affFwdS (fieldA w))
  else if op = 0x04 then .ok (.affInvG (fieldA w))
  else if op = 0x14 then .ok (.affInvS (fieldA w))
  else if op = 0x05 then .ok (.shrG (fieldS w))
  else if op = 0x15 then .ok (.shrS (fieldS w))
  else if op = 0x06 then .ok (.mixc (fieldS w))
  else .error (.illegalOp op)

/-- The nine legal OP bytes, in the order of R66. -/
def legalOps : List Byte := [0x01, 0x02, 0x03, 0x13, 0x04, 0x14, 0x05, 0x15, 0x06]

/-- The operation of this OP byte reads A (R66, "reads"). -/
def readsA (op : Byte) : Bool := [0x01, 0x02, 0x03, 0x13, 0x04, 0x14].contains op

/-- The operation of this OP byte reads B (R66). -/
def readsB (op : Byte) : Bool := op == 0x02

/-- The operation of this OP byte reads S (R66). -/
def readsS (op : Byte) : Bool := [0x05, 0x15, 0x06].contains op

/-- The operation of this OP byte writes RB (R66, "writes"). -/
def writesRB (op : Byte) : Bool := [0x01, 0x02, 0x03, 0x13, 0x04, 0x14].contains op

/-- The operation of this OP byte writes RS (R66). -/
def writesRS (op : Byte) : Bool := [0x05, 0x15, 0x06].contains op

/-- The OP byte of an instruction (R66). -/
def Instr.op : Instr → Byte
  | .gfDbl _ => 0x01
  | .gfMul _ _ => 0x02
  | .affFwdG _ => 0x03
  | .affFwdS _ => 0x13
  | .affInvG _ => 0x04
  | .affInvS _ => 0x14
  | .shrG _ => 0x05
  | .shrS _ => 0x15
  | .mixc _ => 0x06

/-- The command word of an instruction: OP of R66, the operands it reads, 0 in every field it does not (R74). -/
def encode (i : Instr) : CmdWord :=
  match i with
  | .gfDbl a => packCmd i.op a 0 zeroBlock
  | .gfMul a b => packCmd i.op a b zeroBlock
  | .affFwdG a => packCmd i.op a 0 zeroBlock
  | .affFwdS a => packCmd i.op a 0 zeroBlock
  | .affInvG a => packCmd i.op a 0 zeroBlock
  | .affInvS a => packCmd i.op a 0 zeroBlock
  | .shrG st => packCmd i.op 0 0 st
  | .shrS st => packCmd i.op 0 0 st
  | .mixc st => packCmd i.op 0 0 st

/-- The command word whose low nbits bits are those of w, numbered as the opcode table numbers them (bit 0 is CMD[0]),
and whose further bits are 0. The CORE stores no words: the host presents the 152 bits at once (R45). -/
def tableWord (nbits w : Nat) : CmdWord := BitVec.ofNat 152 (w % 2 ^ nbits)

/-- What decode reads from an instruction given by its bits in the opcode table's numbering. -/
def decodeTableWord (nbits w : Nat) : Option Instr :=
  match decode (tableWord nbits w) with
  | .ok i => some i
  | .error _ => none

end Sys2Proof
end

