-- ==== Sys2Proof/Machine/Caller.lean ====
section
/-! DEFINITION. The data of the boundary and of faults: what a caller may hand over, the shapes and operands a fault
names, the fault records, and a boundary Call of each of the nine operations (30_encoding.md R74;
60_exceptions.md R200 to R205; 92_eei_decisions.md D10, D23, D24, D26). -/

namespace Sys2Proof.Machine

/-- A value a caller hands to the boundary (R202, R203, D23). -/
inductive CallerValue where
  /-- An integer of any size. -/
  | int (v : Int)
  /-- A nested list of rows (D26 (a)). -/
  | nested (rows : List (List Int))
  /-- A flat list, read in column-major order (D26 (b)). -/
  | flat (xs : List Int)
  /-- Anything else: a string, a fraction, a list that holds one. The boundary refuses it (D23). -/
  | other
  deriving DecidableEq, Repr

/-- The shape a DIMENSION fault records (D24): the row lengths of a nested list, or a flat list's length. -/
inductive Shape where
  | nested (rowLengths : List Nat)
  | flat (length : Nat)
  deriving DecidableEq, Repr

/-- The operand an INVALID_BYTE fault names: A, B, or element k of S (R201, D24). -/
inductive Operand where
  | A
  | B
  | S (k : Nat)
  deriving DecidableEq, Repr

/-- A fault's code and info in one (R201, D24). -/
inductive FaultInfo where
  /-- INVALID_BYTE: the operand and the offending integer; raised at the boundary (R202, R203). -/
  | invalidByte (operand : Operand) (v : Int)
  /-- DIMENSION: the shape received; raised at the boundary (R203). -/
  | dimension (shape : Shape)
  /-- ILLEGAL_OP: the OP byte; raised by core decode (R204). -/
  | illegalOp (op : Byte)
  deriving DecidableEq, Repr

/-- Why the boundary builds no command word. -/
inductive CallStop where
  /-- One of the two boundary errors (R202, R203). -/
  | fault (info : FaultInfo)
  /-- A value that is no integer, or no list of the two accepted forms, where one is wanted: refused (D23). -/
  | notNumeric
  deriving DecidableEq, Repr

/-- `Call(op, args)` for the nine operations, with the parameter names of the source's functions (R63, R74). -/
inductive Call where
  | gfDbl (b : CallerValue)
  | gfMul (x : CallerValue) (y : CallerValue)
  | affFwdG (b : CallerValue)
  | affFwdS (b : CallerValue)
  | affInvG (b : CallerValue)
  | affInvS (b : CallerValue)
  | shrG (state : CallerValue)
  | shrS (state : CallerValue)
  | mixc (state : CallerValue)
  deriving DecidableEq, Repr

end Sys2Proof.Machine
end

