-- ==== Sys2Proof/Config.lean ====
section
/-! DEFINITION. What the spec leaves open: the draws (00_scope.md R10, 30_encoding.md R70, 70_reset_and_hazards.md
R232, 92_eei_decisions.md D8, D19) and the OPEN parameters LATENCY_CYCLES and N_INSTANCES (R5, R216, R239).
Every open value is an opaque constant: nothing in Lean can evaluate it. The fixed tables stand in
Machine/Tables.lean. -/

namespace Sys2Proof

/-- What a draw is drawn for: a response field that a completed instruction, a fault or a reset leaves unspecified. -/
inductive DrawSite where
  /-- A field the instruction does not write (R70, I1). -/
  | command (i : Instr)
  /-- RB or RS of a faulted command or Call (R200, I2). -/
  | fault (info : Machine.FaultInfo)
  /-- A field of the response word while reset is asserted or before the first command after it (R232, I3). -/
  | reset
  deriving DecidableEq, Repr

/-- An unspecified RB: the draw with this number, for this site. No law (R10, D8); log 1. -/
opaque Config.drawRB : Nat → DrawSite → Byte

/-- An unspecified RS: the draw with this number, for this site. No law (R10, D8); log 1. -/
opaque Config.drawRS : Nat → DrawSite → Block

/-- An unspecified STATUS, which only reset leaves (R232): the draw with this number. No law; log 3. -/
opaque Config.drawSTATUS : Nat → DrawSite → BitVec 2

/-- LATENCY_CYCLES: how long a built block takes, the same for every command. OPEN and read by no rule (R239, D15). -/
opaque Config.LATENCY_CYCLES : Nat

/-- How many instances a system has beyond the first. OPEN (R216, D20). -/
opaque Config.furtherInstances : Nat

/-- N_INSTANCES: the number of CORE instances, at least 1. OPEN (R5, R216, D20). -/
def Config.N_INSTANCES : Nat := Config.furtherInstances + 1

end Sys2Proof
end

