-- ==== Sys2Proof/Machine/State.lean ====
section
/-! DEFINITION. The machine's state: the command and response ports and the run (10_state.md R20 to R32;
70_reset_and_hazards.md R230 to R241). The CORE itself holds no architectural state (R20): no registers, no pc, no
flags, no memory (R21 to R27, R40). -/

namespace Sys2Proof.Machine

/-- The response word's three fields (R61). -/
structure Rsp where
  /-- RB: the Byte result. -/
  rb : Byte
  /-- RS: the State result, 16 byte lanes (R62). -/
  rs : Block
  /-- STATUS: 0 = OK, 1 = INVALID_BYTE, 2 = DIMENSION, 3 = ILLEGAL_OP (R201). -/
  status : BitVec 2
  deriving DecidableEq, Repr

/-- What the host presents in one step (R30, R234). -/
inductive HostInput where
  /-- A raw command word at the port. -/
  | command (w : CmdWord)
  /-- A Call through the boundary (R74). -/
  | call (c : Call)
  /-- Reset asserted (R230, R232). -/
  | reset
  deriving DecidableEq, Repr

/-- The outcome of one command or Call: `Ok(rsp) | Fault(code, info)` (R11, R30). -/
inductive CmdOutcome where
  | ok (rsp : Rsp)
  | fault (info : FaultInfo)
  deriving DecidableEq, Repr

/-- The state of a run: the inputs still to come, the two ports, the run's record and its fault mark. -/
structure State where
  /-- The inputs the host still presents, the next one first (R30, R234). -/
  pending : List HostInput
  /-- The word on the command port, which no command changes (R29, R60); none before one is presented. -/
  cmd : Option CmdWord
  /-- The response port (R61). -/
  rsp : Rsp
  /-- The outcomes of the run so far, the oldest first (R30, R241). -/
  outcomes : List CmdOutcome
  /-- The sticky fault mark (R30). -/
  faultMark : Bool
  /-- The model's own counter: the number of the next draw (log 2). -/
  draws : Nat
  deriving DecidableEq, Repr

/-- Why the machine stops. -/
inductive Fault where
  /-- Raised by step alone, when the host presents nothing more: the run has ended (R241). Safe: nothing is claimed of
  a step that the spec does not have. (A command's own fault is no such stop: it is recorded in the state, R30.) -/
  | noCommand
  deriving DecidableEq, Repr

/-- What the model gives no meaning to. -/
inductive Refusal where
  /-- Raised by exec's arm of an instruction without a meaning; no arm is left that raises it. Safe. -/
  | notModelled (mnemonic : String)
  /-- Raised by step for a Call with a value that is no integer, or no list of the two accepted forms, where one is
  wanted (D23, I9). Safe: the spec itself refuses it. -/
  | notNumeric
  deriving DecidableEq, Repr

/-- The machine right after reset (R32): the fault mark clear, no command yet presented, the response word unspecified
(R232): three draws, that no statement may read (log 3, 5). -/
def State.reset : State where
  pending := []
  cmd := none
  rsp := { rb := Config.drawRB 0 .reset, rs := Config.drawRS 0 .reset, status := Config.drawSTATUS 0 .reset }
  outcomes := []
  faultMark := false
  draws := 1

end Sys2Proof.Machine
end

