-- ==== Sys2Proof/Machine/Flags.lean ====
section
/-! DEFINITION. The status codes of a response (60_exceptions.md R201) and the response word's layout
(30_encoding.md R61, R62). The CORE has no flags (10_state.md R23): STATUS is all a response says of success. -/

namespace Sys2Proof.Machine

/-- STATUS of every legal command: OK (R66, R201). -/
def okStatus : BitVec 2 := 0

/-- STATUS of a fault (R201, D9). -/
def FaultInfo.code : FaultInfo → BitVec 2
  | .invalidByte _ _ => 1
  | .dimension _ => 2
  | .illegalOp _ => 3

/-- The response word: RB = RSP[7:0], RS = RSP[135:8], STATUS = RSP[137:136] (R61). -/
def Rsp.word (r : Rsp) : RspWord :=
  r.rb.setWidth 138 ||| ((packLanes r.rs).setWidth 138 <<< 8) ||| (r.status.setWidth 138 <<< 136)

/-- The fields of a response word (R61, R62). -/
def Rsp.ofWord (w : RspWord) : Rsp where
  rb := w.extractLsb' 0 8
  rs := lanesOf (w.extractLsb' 8 128)
  status := w.extractLsb' 136 2

end Sys2Proof.Machine
end

