-- ==== Sys2Proof/Machine/Ops.lean ====
section
/-! DEFINITION. The named operations over the machine's state: taking the host's next input, answering a command,
recording a fault, reset. A command writes nothing but its own response and the run's record (10_state.md R29,
20_memory.md R46). -/

namespace Sys2Proof.Machine

/-- The host presents one more input, after those it already presents (R30, R234). -/
def State.present (s : State) (x : HostInput) : State := { s with pending := s.pending ++ [x] }

/-- The host's next input, and the state without it. -/
def State.takeInput (s : State) : Option (HostInput × State) :=
  match s.pending with
  | [] => none
  | x :: rest => some (x, { s with pending := rest })

/-- A command word stands on the command port (R60). -/
def State.onPort (s : State) (w : CmdWord) : State := { s with cmd := some w }

/-- A command ends in `Ok(r)`: r is the response, and the run records it (R11, R30). -/
def State.complete (s : State) (r : Rsp) : State :=
  { s with rsp := r, outcomes := s.outcomes ++ [.ok r], draws := s.draws + 1 }

/-- A byte operation's answer: RB is the result, STATUS is OK, RS a draw (R66, R70). -/
def State.answerByte (s : State) (i : Instr) (result : Byte) : State :=
  s.complete { rb := result, rs := Config.drawRS s.draws (.command i), status := okStatus }

/-- A state operation's answer: RS is the result, STATUS is OK, RB a draw (R66, R70). -/
def State.answerBlock (s : State) (i : Instr) (result : Block) : State :=
  s.complete { rb := Config.drawRB s.draws (.command i), rs := result, status := okStatus }

/-- A command or Call ends in `Fault(code, info)`: STATUS holds the code, RB and RS are draws, the run records the
fault and the sticky mark is set (R30, R200). There is no trap: nothing is saved and nothing is transferred (R209). -/
def State.raise (s : State) (info : FaultInfo) : State :=
  { s with
    rsp :=
      { rb := Config.drawRB s.draws (.fault info), rs := Config.drawRS s.draws (.fault info), status := info.code }
    outcomes := s.outcomes ++ [.fault info]
    faultMark := true
    draws := s.draws + 1 }

/-- Reset asserted: the response word is unspecified and nothing else changes (R230, R232). -/
def State.resetResponse (s : State) : State :=
  { s with
    rsp :=
      { rb := Config.drawRB s.draws .reset, rs := Config.drawRS s.draws .reset, status := Config.drawSTATUS s.draws .reset }
    draws := s.draws + 1 }

end Sys2Proof.Machine
end

