-- ==== Sys2Proof/Machine/Tables.lean ====
section
/-! DEFINITION. The hardwired constant tables (10_state.md R25): neither reset nor writable (70_reset_and_hazards.md
R230). The affine matrices are the spec's decision D13 (log 8). -/

namespace Sys2Proof.Machine

/-- The low 8 bits of the reduction polynomial 0x11B (R5, R101). -/
def REDUCTION_CONST : Byte := 0x1B

/-- The reduction polynomial x^8+x^4+x^3+x+1 (R5, R100). -/
def REDUCTION_POLY : BitVec 16 := 0x11B

/-- The forward matrix, row bytes 0 to 7 (R120, D13). -/
def AFFINE_FWD_MATRIX : BitMatrix := #v[0xF1, 0xE3, 0xC7, 0x8F, 0x1F, 0x3E, 0x7C, 0xF8]

/-- The forward constant (R120). -/
def AFFINE_FWD_CONST : Byte := 0x63

/-- The inverse matrix, row bytes 0 to 7: the GF(2) inverse of the forward one (R121, D13). -/
def AFFINE_INV_MATRIX : BitMatrix := #v[0xA4, 0x49, 0x92, 0x25, 0x4A, 0x94, 0x29, 0x52]

/-- The inverse constant (R121). -/
def AFFINE_INV_CONST : Byte := 0x05

/-- The fixed index table of the row permutation: output flat byte k is input flat byte SHR_TABLE[k] (R151). -/
def SHR_TABLE : Vector (Fin 16) 16 := #v[0, 5, 10, 15, 4, 9, 14, 3, 8, 13, 2, 7, 12, 1, 6, 11]

/-- The first row of the column-mixing matrix (R170). -/
def mdsFirstRow : Column := #v[2, 3, 1, 1]

/-- The column-mixing matrix: `MDS[row][k]` is the coefficient in row `row`, column k. Each row is the row above rotated
right by one, so entry (row, k) is entry k − row (mod 4) of the first row (R170). -/
def MDS : Matrix :=
  Vector.ofFn fun row => Vector.ofFn fun k => mdsFirstRow[(k.val + 4 - row.val) % 4]'(by omega)

end Sys2Proof.Machine
end

