-- ==== Sys2Proof/Machine/Affine.lean ====
section
/-! DEFINITION. The affine substitution layer and its instructions AFF.FWD.G, AFF.FWD.S, AFF.INV.G and AFF.INV.S
(41_affine.md R120 to R130). -/

namespace Sys2Proof.Machine

/-- A BitVector8: 8 bits taken from a byte, bit 0 the least significant (R12, R41). -/
def bitVector8 (b : Byte) : Vector Bool 8 := Vector.ofFn fun j => b.getLsbD j.val

/-- Repack 8 bits into a byte in the same bit order (R122). -/
def repack (y : Vector Bool 8) : Byte :=
  (List.finRange 8).foldl (fun b i => b ||| ((BitVec.ofBool y[i]).setWidth 8 <<< i.val)) 0

/-- One row of the product over GF(2): AND the row with the vector, then XOR-reduce (R122). -/
def rowProduct (row : Byte) (v : Vector Bool 8) : Bool :=
  (List.finRange 8).foldl (fun acc j => acc ^^ (row.getLsbD j.val && v[j])) false

/-- The general strategy: the explicit matrix-vector product over GF(2), then XOR with the constant (R122). -/
def affineGeneral (m : BitMatrix) (k b : Byte) : Byte :=
  let v := bitVector8 b
  repack (Vector.ofFn fun i => rowProduct m[i] v ^^ k.getLsbD i.val)

/-- The specialized forward strategy: each row's XOR expanded and the constant 0x63 folded in (R123). -/
def affineFwdFast (b : Byte) : Byte :=
  let v := bitVector8 b
  repack #v[
    v[0] ^^ v[4] ^^ v[5] ^^ v[6] ^^ v[7] ^^ true,
    v[0] ^^ v[1] ^^ v[5] ^^ v[6] ^^ v[7] ^^ true,
    v[0] ^^ v[1] ^^ v[2] ^^ v[6] ^^ v[7],
    v[0] ^^ v[1] ^^ v[2] ^^ v[3] ^^ v[7],
    v[0] ^^ v[1] ^^ v[2] ^^ v[3] ^^ v[4],
    v[1] ^^ v[2] ^^ v[3] ^^ v[4] ^^ v[5] ^^ true,
    v[2] ^^ v[3] ^^ v[4] ^^ v[5] ^^ v[6] ^^ true,
    v[3] ^^ v[4] ^^ v[5] ^^ v[6] ^^ v[7]]

/-- The specialized inverse strategy: each row's XOR expanded and the constant 0x05 folded in (R123). -/
def affineInvFast (b : Byte) : Byte :=
  let v := bitVector8 b
  repack #v[
    v[2] ^^ v[5] ^^ v[7] ^^ true,
    v[0] ^^ v[3] ^^ v[6],
    v[1] ^^ v[4] ^^ v[7] ^^ true,
    v[0] ^^ v[2] ^^ v[5],
    v[1] ^^ v[3] ^^ v[6],
    v[2] ^^ v[4] ^^ v[7],
    v[0] ^^ v[3] ^^ v[5],
    v[1] ^^ v[4] ^^ v[6]]

/-- AFF.FWD.G (R124). -/
def execAffFwdG (a : Byte) (s : State) : Host.Outcome State Fault Refusal :=
  .next (s.answerByte (.affFwdG a) (affineGeneral AFFINE_FWD_MATRIX AFFINE_FWD_CONST a))

/-- AFF.FWD.S (R125). -/
def execAffFwdS (a : Byte) (s : State) : Host.Outcome State Fault Refusal :=
  .next (s.answerByte (.affFwdS a) (affineFwdFast a))

/-- AFF.INV.G (R126). -/
def execAffInvG (a : Byte) (s : State) : Host.Outcome State Fault Refusal :=
  .next (s.answerByte (.affInvG a) (affineGeneral AFFINE_INV_MATRIX AFFINE_INV_CONST a))

/-- AFF.INV.S (R127). -/
def execAffInvS (a : Byte) (s : State) : Host.Outcome State Fault Refusal :=
  .next (s.answerByte (.affInvS a) (affineInvFast a))

end Sys2Proof.Machine
end

