-- ==== Sys2Proof/Machine/GfArith.lean ====
section
/-! DEFINITION. The GF(2^8) arithmetic engine and its instructions GF.DBL and GF.MUL (40_gf_arith.md R100 to R109). -/

namespace Sys2Proof.Machine

/-- The source's `double`: shift left one bit, and XOR with 0x1B when the pre-shift high bit is 1 (R101). -/
def xtime (b : Byte) : Byte := if b.getLsbD 7 then (b <<< 1) ^^^ REDUCTION_CONST else b <<< 1

/-- Iteration i of `multiply`: with bit i of y set, the current x is added to acc; then x is doubled (R103). -/
def gmulIteration (y : Byte) (accX : Byte × Byte) (i : Nat) : Byte × Byte :=
  (if y.getLsbD i then accX.1 ^^^ accX.2 else accX.1, xtime accX.2)

/-- The source's `multiply`: double-and-add over the 8 bits of y, least significant first, from acc = 0x00 (R103). -/
def gmul (x y : Byte) : Byte := ((List.range 8).foldl (gmulIteration y) (0x00, x)).1

/-- The carry-less polynomial product of x and y, of degree at most 14 (R106). -/
def polyMul (x y : Byte) : BitVec 16 :=
  (List.range 8).foldl (fun p i => if y.getLsbD i then p ^^^ (x.setWidth 16 <<< i) else p) 0

/-- A polynomial of degree at most 14 reduced modulo 0x11B, from its term of degree 14 down to that of degree 8 (R106). -/
def polyReduce (p : BitVec 16) : Byte :=
  ((List.range 7).foldl (fun p i => if p.getLsbD (14 - i) then p ^^^ (REDUCTION_POLY <<< (6 - i)) else p) p).setWidth 8

/-- GF.DBL (R104). -/
def execGfDbl (a : Byte) (s : State) : Host.Outcome State Fault Refusal :=
  .next (s.answerByte (.gfDbl a) (xtime a))

/-- GF.MUL (R105). -/
def execGfMul (a b : Byte) (s : State) : Host.Outcome State Fault Refusal :=
  .next (s.answerByte (.gfMul a b) (gmul a b))

end Sys2Proof.Machine
end

