-- ==== Sys2Proof/Machine/MixColumns.lean ====
section
/-! DEFINITION. Column mixing and its instruction MIXC (43_mix_columns.md R170 to R175). -/

namespace Sys2Proof.Machine

/-- Column c of a State: lanes 4c to 4c+3, row r at lane 4c + r (R172). -/
def columnOf (f : Block) (c : Fin 4) : Column := Vector.ofFn fun r => f[4 * c.val + r.val]

/-- The column transform: row `row` of the result is `XOR_k gmul(MDS[row][k], a_k)` (R171). -/
def mixColumn (a : Column) : Column :=
  Vector.ofFn fun row => (List.finRange 4).foldl (fun acc k => acc ^^^ gmul MDS[row][k] a[k]) 0

/-- The four columns, each mixed on its own: lane 4c + r is row r of column c mixed (R172, R173). -/
def mixColumns (f : Block) : Block :=
  Vector.ofFn fun k => (mixColumn (columnOf f ⟨k.val / 4, by omega⟩))[k.val % 4]'(by omega)

/-- MIXC (R172). -/
def execMixc (st : Block) (s : State) : Host.Outcome State Fault Refusal :=
  .next (s.answerBlock (.mixc st) (mixColumns st))

end Sys2Proof.Machine
end

