-- ==== Sys2Proof/Machine/ShiftRows.lean ====
section
/-! DEFINITION. The row permutation and its instructions SHR.G and SHR.S (42_shift_rows.md R150 to R156), with the
conversion between the flat and the nested form of a State (00_scope.md R9). -/

namespace Sys2Proof.Machine

/-- The nested form of a State: `st[r][c] = f[r + 4c]` (R9). -/
def toMatrix (f : Block) : Matrix := Vector.ofFn fun r => Vector.ofFn fun c => f[r.val + 4 * c.val]

/-- The flat form of a State: `f[k] = st[k mod 4][k div 4]` (R9). -/
def ofMatrix (st : Matrix) : Block :=
  Vector.ofFn fun k => (st[k.val % 4]'(by omega))[k.val / 4]'(by omega)

/-- The general strategy, rotate-by-index: `out[r][c] = st[r][(c + r) mod 4]` (R150, R152). -/
def shiftRowsGeneral (st : Matrix) : Matrix :=
  Vector.ofFn fun r => Vector.ofFn fun c => st[r][(c.val + r.val) % 4]'(by omega)

/-- The fixed-index-table strategy on the flat form: `g[k] = f[SHR_TABLE[k]]` (R152). -/
def shiftRowsTable (f : Block) : Block := Vector.ofFn fun k => f[SHR_TABLE[k]]

/-- SHR.G (R153). -/
def execShrG (st : Block) (s : State) : Host.Outcome State Fault Refusal :=
  .next (s.answerBlock (.shrG st) (ofMatrix (shiftRowsGeneral (toMatrix st))))

/-- SHR.S (R154). -/
def execShrS (st : Block) (s : State) : Host.Outcome State Fault Refusal :=
  .next (s.answerBlock (.shrS st) (shiftRowsTable st))

end Sys2Proof.Machine
end

