-- ==== Sys2Proof/Machine/Dispatch.lean ====
section
/-! DEFINITION. The meaning of each instruction: one arm per row of the opcode table (30_encoding.md R66). -/

namespace Sys2Proof.Machine

def exec (i : Instr) (s : State) : Host.Outcome State Fault Refusal :=
  match i with
  | .gfDbl a => Sys2Proof.Machine.execGfDbl a s
  | .gfMul a b => Sys2Proof.Machine.execGfMul a b s
  | .affFwdG a => Sys2Proof.Machine.execAffFwdG a s
  | .affFwdS a => Sys2Proof.Machine.execAffFwdS a s
  | .affInvG a => Sys2Proof.Machine.execAffInvG a s
  | .affInvS a => Sys2Proof.Machine.execAffInvS a s
  | .shrG st => Sys2Proof.Machine.execShrG st s
  | .shrS st => Sys2Proof.Machine.execShrS st s
  | .mixc st => Sys2Proof.Machine.execMixc st s

end Sys2Proof.Machine
end

