-- ==== Sys2Proof/Machine/Operands.lean ====
section
/-! DEFINITION. Operand forms: the boundary conversions ToByte and ToState, and the instruction a Call builds
(60_exceptions.md R202, R203, R208; 30_encoding.md R74; 92_eei_decisions.md D10 to D12, D23, D26). The operand fields
of a command word are in Decode.lean. -/

namespace Sys2Proof.Machine

/-- 0 ≤ v ≤ 255: v is a byte's value (R202). -/
def inByteRange (v : Int) : Bool := decide (0 ≤ v) && decide (v ≤ 255)

/-- The 8 bits of a value in 0-255 (R202). -/
def byteOfInt (v : Int) : Byte := BitVec.ofInt 8 v

/-- ToByte (R202): an integer in 0-255 is taken as 8 bits, any other integer raises INVALID_BYTE with the operand and
the integer, never truncated; a value that is no integer is refused (D23). -/
def toByte (operand : Operand) (x : CallerValue) : Except CallStop Byte :=
  match x with
  | .int v => if inByteRange v then .ok (byteOfInt v) else .error (.fault (.invalidByte operand v))
  | .nested _ => .error .notNumeric
  | .flat _ => .error .notNumeric
  | .other => .error .notNumeric

/-- The first element out of 0-255 with its index, counting from k (R203, D12). -/
def firstBadFrom (k : Nat) (xs : List Int) : Option (Nat × Int) :=
  match xs with
  | [] => none
  | v :: vs => if inByteRange v then firstBadFrom (k + 1) vs else some (k, v)

/-- The elements of a well-shaped nested list in flat index order: element k is `L[k mod 4][k div 4]` (R203, R9). -/
def flatOfRows (rows : List (List Int)) : List Int :=
  (List.range 16).map fun k => (rows.getD (k % 4) []).getD (k / 4) 0

/-- 16 integers in flat order as a State, once the shape is known to be right: the least k whose element is out of
range raises INVALID_BYTE (R203, R208). -/
def blockOfFlat (xs : List Int) : Except CallStop Block :=
  match firstBadFrom 0 xs with
  | some (k, v) => .error (.fault (.invalidByte (.S k) v))
  | none => .ok (Vector.ofFn fun k => byteOfInt (xs.getD k.val 0))

/-- A nested list of 4 rows of 4 (R203). -/
def isFourByFour (rows : List (List Int)) : Bool := rows.length == 4 && rows.all (·.length == 4)

/-- ToState (R203): 4 rows of 4, or 16 elements in column-major order; any other list raises DIMENSION with its shape,
before any element is looked at; a value that is no list is refused (D23). -/
def toBlock (x : CallerValue) : Except CallStop Block :=
  match x with
  | .nested rows =>
    if isFourByFour rows then blockOfFlat (flatOfRows rows)
    else .error (.fault (.dimension (.nested (rows.map (·.length)))))
  | .flat xs => if xs.length = 16 then blockOfFlat xs else .error (.fault (.dimension (.flat xs.length)))
  | .int _ => .error .notNumeric
  | .other => .error .notNumeric

/-- An operation of one Byte operand, which travels in A (R74). -/
def callByte (op : Byte → Instr) (b : CallerValue) : Except CallStop Instr :=
  match toByte .A b with
  | .ok a => .ok (op a)
  | .error e => .error e

/-- An operation of one State operand, which travels in S (R74). -/
def callState (op : Block → Instr) (x : CallerValue) : Except CallStop Instr :=
  match toBlock x with
  | .ok st => .ok (op st)
  | .error e => .error e

/-- The instruction a Call builds, or the first error in the order A, B, S (R74, R208, D12). -/
def Call.toInstr (c : Call) : Except CallStop Instr :=
  match c with
  | .gfDbl b => callByte .gfDbl b
  | .gfMul x y =>
    match toByte .A x with
    | .error e => .error e
    | .ok a =>
      match toByte .B y with
      | .error e => .error e
      | .ok b => .ok (.gfMul a b)
  | .affFwdG b => callByte .affFwdG b
  | .affFwdS b => callByte .affFwdS b
  | .affInvG b => callByte .affInvG b
  | .affInvS b => callByte .affInvS b
  | .shrG state => callState .shrG state
  | .shrS state => callState .shrS state
  | .mixc state => callState .mixc state

end Sys2Proof.Machine
end

