-- ==== Sys2Proof/Machine/Run.lean ====
section
/-! DEFINITION. What one input of the host does: Core on a command word, Call through the boundary, reset
(00_scope.md R11; 30_encoding.md R67, R74; 60_exceptions.md R200, R204; 70_reset_and_hazards.md R230). -/

namespace Sys2Proof.Machine

/-- Core: a command word is decoded and its instruction run, or ILLEGAL_OP is raised and nothing computed (R11, R204). -/
def runCommand (w : CmdWord) (s : State) : Host.Outcome State Fault Refusal :=
  match decode w with
  | .ok i => exec i (s.onPort w)
  | .error (.illegalOp op) => .next ((s.onPort w).raise (.illegalOp op))

/-- Call: the boundary converts the caller's values, then encodes and presents the command word to Core; a boundary
error is raised before any command word exists (R11, R74), and a value that is no number is refused (D23). -/
def runCall (c : Call) (s : State) : Host.Outcome State Fault Refusal :=
  match c.toInstr with
  | .ok i => runCommand (encode i) s
  | .error (.fault info) => .next (s.raise info)
  | .error .notNumeric => .refused .notNumeric

/-- One input of the host. -/
def runInput (x : HostInput) (s : State) : Host.Outcome State Fault Refusal :=
  match x with
  | .command w => runCommand w s
  | .call c => runCall c s
  | .reset => .next s.resetResponse

end Sys2Proof.Machine
end

