-- ==== Sys2Proof/Machine/Step.lean ====
section
/-! DEFINITION. One step: one input of the host (10_state.md R30; 70_reset_and_hazards.md R241), and the placing of
an instruction as the host's next input. -/

namespace Sys2Proof.Machine

/-- One step takes the host's next input; where there is none, the run has ended (R241). -/
def step (s : State) : Host.Outcome State Fault Refusal :=
  match s.takeInput with
  | none => .fault .noCommand
  | some (x, s') => runInput x s'

/-- s with this instruction, in the opcode table's numbering, presented as the host's next input, before the inputs it
already presents: the CORE fetches nothing, and a program runs by the host's presenting it (R22; log 7). -/
def State.withFetchWord (s : State) (nbits w : Nat) : State :=
  { s with pending := .command (tableWord nbits w) :: s.pending }

end Sys2Proof.Machine
end

