-- ==== Sys2Proof/Machine/Instances.lean ====
section
/-! DEFINITION. Several CORE instances side by side: each a State of its own, nothing shared (10_state.md R31;
60_exceptions.md R216; 92_eei_decisions.md D20). -/

namespace Sys2Proof.Machine

/-- A system of n instances, each with its own run. -/
abbrev Instances (n : Nat) := Vector State n

/-- The system the parameter N_INSTANCES gives (R5). -/
abbrev System := Instances Config.N_INSTANCES

/-- Instance k takes one step of its own; the others do nothing (R31, R216). -/
def Instances.stepOne {n : Nat} (cores : Instances n) (k : Fin n) : Host.Outcome (Instances n) Fault Refusal :=
  match step cores[k] with
  | .next t => .next (cores.set k t)
  | .fault r => .fault r
  | .refused r => .refused r

end Sys2Proof.Machine
end

