-- ==== Sys2Proof/Machine/Spelling.lean ====
section
/-! DEFINITION. How the spec spells commands: the hexadecimal spelling of a command word and the assembler syntax
(30_encoding.md R72, R73). It has no effect on what a command does (92_eei_decisions.md D22). -/

namespace Sys2Proof.Machine

/-- The hexadecimal digit of a number below 16; its letter case, which the spec leaves open, is lower here: DESIGN
CHOICE, log 16. -/
def hexDigit (n : Nat) : Char := if n < 10 then Char.ofNat (48 + n) else Char.ofNat (87 + n)

/-- The last n hexadecimal digits of v, most significant first. -/
def hexDigits (n v : Nat) : List Char :=
  match n with
  | 0 => []
  | n + 1 => hexDigits n (v / 16) ++ [hexDigit (v % 16)]

/-- A byte literal of the assembler: 0x and two digits (R72). -/
def spellByte (b : Byte) : List Char := '0' :: 'x' :: hexDigits 2 b.toNat

/-- The State of the assembler: its 16 bytes in flat order as two-digit numbers with spaces between, in braces
(characters 123 and 125) (R72). -/
def spellBlock (f : Block) : List Char :=
  Char.ofNat 123 :: [' '].intercalate (f.toList.map fun b => hexDigits 2 b.toNat) ++ [Char.ofNat 125]

/-- How many digits a command word is spelled with (R73): 38, but 6 (its low 24 bits) for a byte operation with S = 0.
A word with an illegal OP and S = 0, of which R73 does not speak, has 6 digits too, as the spec's own illegal words have
(95_test_vectors.md L2-6, P4): DEDUCED, log 16. A state operation keeps its 38 digits whatever S is. -/
def spelledDigits (w : CmdWord) : Nat := if fieldS w = zeroBlock ∧ readsS (fieldOP w) = false then 6 else 38

/-- A command word: 0x and its hexadecimal digits, most significant first (R73). -/
def spellWord (w : CmdWord) : List Char := '0' :: 'x' :: hexDigits (spelledDigits w) w.toNat

/-- An instruction in the assembler syntax (R72). -/
def spellInstr (i : Instr) : List Char :=
  match i with
  | .gfDbl a => "gf.dbl a=".toList ++ spellByte a
  | .gfMul a b => "gf.mul a=".toList ++ spellByte a ++ ", b=".toList ++ spellByte b
  | .affFwdG a => "aff.fwd.g a=".toList ++ spellByte a
  | .affFwdS a => "aff.fwd.s a=".toList ++ spellByte a
  | .affInvG a => "aff.inv.g a=".toList ++ spellByte a
  | .affInvS a => "aff.inv.s a=".toList ++ spellByte a
  | .shrG st => "shr.g s=".toList ++ spellBlock st
  | .shrS st => "shr.s s=".toList ++ spellBlock st
  | .mixc st => "mixc s=".toList ++ spellBlock st

end Sys2Proof.Machine
end

