-- ==== Sys2Proof/WellFormed.lean ====
section
/-! DEFINITION. Well-formedness. Operand ranges are carried by the types of Instr (a Byte is 8 bits, a Block 16 bytes),
so what is left to check of a command is its OP byte, by the three field rules of 30_encoding.md R63, R64 and R65. -/

namespace Sys2Proof

/-- R65: the reserved bits OP[7:5] are 0. -/
def reservedClear (op : Byte) : Bool := op.extractLsb' 5 3 == 0

/-- R63: the function code OP[3:0] is one of the six defined. -/
def functionDefined (op : Byte) : Bool := decide (1 ≤ (op.extractLsb' 0 4).toNat) && decide ((op.extractLsb' 0 4).toNat ≤ 6)

/-- R64: the strategy bit ST = OP[4] is 0, but for AFF.FWD (3), AFF.INV (4) and SHR (5). -/
def strategyAllowed (op : Byte) : Bool :=
  !op.getLsbD 4 || (decide (3 ≤ (op.extractLsb' 0 4).toNat) && decide ((op.extractLsb' 0 4).toNat ≤ 5))

/-- An OP byte is legal by the field rules R63, R64 and R65. -/
def opLegal (op : Byte) : Bool := reservedClear op && functionDefined op && strategyAllowed op

/-- A command word is well formed when its OP byte is legal: no value of any other field is refused (R69, R206). -/
def CmdWord.wellFormed (w : CmdWord) : Bool := opLegal (fieldOP w)

/-- An instruction is well formed when its OP byte is legal: its operands are in range by their types. -/
def Instr.wellFormed (i : Instr) : Bool := opLegal i.op

end Sys2Proof
end

