-- ==== Sys2Proof/Safety.lean ====
section
/-! DEFINITION. The terms claims are made in: when two command words agree on what is read (30_encoding.md R69) and two
responses on the specified fields (R70), which faults are justified (60_exceptions.md R201 to R204), the
invariant of a run (10_state.md R30), and what is observed of it (70_reset_and_hazards.md R241). -/

namespace Sys2Proof

/-- Two command words with the same OP that agree on every field their operation reads (R69). -/
def agreeOnRead (w w' : CmdWord) : Prop :=
  fieldOP w = fieldOP w' ∧ (readsA (fieldOP w) → fieldA w = fieldA w') ∧
    (readsB (fieldOP w) → fieldB w = fieldB w') ∧ (readsS (fieldOP w) → fieldS w = fieldS w')

/-- Column j of a bit matrix, from row 0 on: what a row of a left factor is multiplied with (R121). -/
def columnBits (m : BitMatrix) (j : Nat) : Vector Bool 8 := Vector.ofFn fun k => m[k].getLsbD j

namespace Machine

/-- Two responses agree on STATUS and on the fields the operation of this OP byte writes: all that a claim may read (R70). -/
def agreeOnWritten (op : Byte) (r r' : Rsp) : Prop :=
  r.status = r'.status ∧ (writesRB op → r.rb = r'.rb) ∧ (writesRS op → r.rs = r'.rs)

/-- The outcome is a fault. -/
def CmdOutcome.isFault (o : CmdOutcome) : Bool :=
  match o with
  | .ok _ => false
  | .fault _ => true

/-- A fault the spec lets the CORE or the boundary raise: an OP byte outside the nine, a shape that is neither 4×4 nor
16 elements, an integer outside 0-255 for A, B or one of the 16 elements of S (R201 to R204). -/
def FaultInfo.justified (info : FaultInfo) : Bool :=
  match info with
  | .illegalOp op => !legalOps.contains op
  | .dimension (.nested rowLengths) => rowLengths != [4, 4, 4, 4]
  | .dimension (.flat length) => length != 16
  | .invalidByte (.S k) v => decide (k < 16) && (decide (v < 0) || decide (255 < v))
  | .invalidByte .A v => decide (v < 0) || decide (255 < v)
  | .invalidByte .B v => decide (v < 0) || decide (255 < v)

/-- An outcome as the spec lets one be: an Ok response has STATUS 0 (R66), a fault is justified. -/
def CmdOutcome.lawful (o : CmdOutcome) : Bool :=
  match o with
  | .ok r => r.status == 0
  | .fault info => info.justified

/-- No fault is recorded for this run (R210). -/
def State.noFaultRecorded (s : State) : Bool := !s.faultMark

/-- The observation of a run: its outcomes with the sticky fault mark (R241). -/
def State.observation (s : State) : List CmdOutcome × Bool := (s.outcomes, s.faultMark)

/-- The invariant of a run: the sticky mark is set exactly when a fault is recorded (R30), and every recorded outcome
is one the spec allows. -/
def State.Inv (s : State) : Prop :=
  s.faultMark = s.outcomes.any CmdOutcome.isFault ∧ ∀ o ∈ s.outcomes, o.lawful = true

end Machine

end Sys2Proof
end

