-- ==== Sys2Proof/Certificates/Slice0/Obligations.lean ====
section
/-! DEFINITION. The statements for the provers. Each cites the rules of spec/ it formalises; OBLIGATIONS.json lists them. -/

open Sys2Proof Sys2Proof.Machine

/-! ## Encoding -/

/-- Decode reads back every instruction encode wrote (R60, R62, R66, R67, R74). -/
def Obligations.DecodeOfEncodeIsTheInstruction : Prop := ∀ i : Instr, decode (encode i) = .ok i

/-- R60: OP, A, B and S are bits [7:0], [15:8], [23:16] and [151:24] of the command word, and hold all of it. -/
def Obligations.CommandWordLayout : Prop :=
  ∀ w : CmdWord,
    (∀ i < 8, (fieldOP w).getLsbD i = w.getLsbD i ∧ (fieldA w).getLsbD i = w.getLsbD (8 + i) ∧
      (fieldB w).getLsbD i = w.getLsbD (16 + i)) ∧
    (∀ i < 128, (packLanes (fieldS w)).getLsbD i = w.getLsbD (24 + i)) ∧
    packCmd (fieldOP w) (fieldA w) (fieldB w) (fieldS w) = w

/-- R61: RB, RS and STATUS are bits [7:0], [135:8] and [137:136] of the response word, with the four status codes. -/
def Obligations.ResponseWordLayout : Prop :=
  (∀ r : Rsp,
    (∀ i < 8, r.word.getLsbD i = r.rb.getLsbD i) ∧
    (∀ i < 128, r.word.getLsbD (8 + i) = (packLanes r.rs).getLsbD i) ∧
    (∀ i < 2, r.word.getLsbD (136 + i) = r.status.getLsbD i) ∧ Rsp.ofWord r.word = r) ∧
  okStatus = 0 ∧ (∀ operand v, (FaultInfo.invalidByte operand v).code = 1) ∧
  (∀ shape, (FaultInfo.dimension shape).code = 2) ∧ (∀ op, (FaultInfo.illegalOp op).code = 3)

/-- R62: lane k is bits [24+8k+7 : 24+8k] of CMD and [8+8k+7 : 8+8k] of RSP, and holds `st[k mod 4][k div 4]`. -/
def Obligations.StateByteLanes : Prop :=
  ∀ (w : CmdWord) (v : RspWord) (k : Fin 16),
    (∀ i < 8, (fieldS w)[k].getLsbD i = w.getLsbD (24 + 8 * k.val + i) ∧
      ((Rsp.ofWord v).rs)[k].getLsbD i = v.getLsbD (8 + 8 * k.val + i)) ∧
    ∀ f : Block, (toMatrix f)[k.val % 4]?.bind (·[k.val / 4]?) = some f[k]

/-- R67: decode over all 256 OP values: the nine operations with the operands they read; the other 247 raise
ILLEGAL_OP with the OP byte. That the step answers a next state, with the fault recorded, is DEDUCED (log 4). -/
def Obligations.DecodeTotalOverOpBytes : Prop :=
  (∀ w : CmdWord,
    (fieldOP w = 0x01 → decode w = .ok (.gfDbl (fieldA w))) ∧
    (fieldOP w = 0x02 → decode w = .ok (.gfMul (fieldA w) (fieldB w))) ∧
    (fieldOP w = 0x03 → decode w = .ok (.affFwdG (fieldA w))) ∧
    (fieldOP w = 0x13 → decode w = .ok (.affFwdS (fieldA w))) ∧
    (fieldOP w = 0x04 → decode w = .ok (.affInvG (fieldA w))) ∧
    (fieldOP w = 0x14 → decode w = .ok (.affInvS (fieldA w))) ∧
    (fieldOP w = 0x05 → decode w = .ok (.shrG (fieldS w))) ∧
    (fieldOP w = 0x15 → decode w = .ok (.shrS (fieldS w))) ∧
    (fieldOP w = 0x06 → decode w = .ok (.mixc (fieldS w))) ∧
    (fieldOP w ∉ legalOps → decode w = .error (.illegalOp (fieldOP w)) ∧
      ∀ (s : State) (rest : List HostInput), s.pending = .command w :: rest →
        ∃ t, step s = .next t ∧ t.outcomes = s.outcomes ++ [.fault (.illegalOp (fieldOP w))])) ∧
  ((List.range 256).countP fun v => !legalOps.contains (BitVec.ofNat 8 v)) = 247

/-- R63, R64, R65: a word decodes to an instruction exactly when OP[7:5] is 0, OP[3:0] is 1 to 6, and OP[4] is 0 unless
OP[3:0] is 3, 4 or 5: the field rules and the list of R67 agree. -/
def Obligations.FieldRulesAgreeWithDecode : Prop :=
  ∀ w : CmdWord, (∃ i, decode w = .ok i) ↔
    w.extractLsb' 5 3 = 0 ∧ (1 ≤ (w.extractLsb' 0 4).toNat ∧ (w.extractLsb' 0 4).toNat ≤ 6) ∧
      (w.getLsbD 4 = true → (w.extractLsb' 0 4).toNat ∈ [3, 4, 5])

/-- 95_test_vectors.md: one command word of each operation, and one illegal word, decode to what they stand for. -/
def Obligations.SpecWordsDecode : Prop :=
  decode 0x005701 = .ok (.gfDbl 0x57) ∧ decode 0x835702 = .ok (.gfMul 0x57 0x83) ∧
  decode 0x00CA03 = .ok (.affFwdG 0xCA) ∧ decode 0x00CA13 = .ok (.affFwdS 0xCA) ∧
  decode 0x00ED04 = .ok (.affInvG 0xED) ∧ decode 0x00ED14 = .ok (.affInvS 0xED) ∧
  decode 0x0f0e0d0c0b0a09080706050403020100000005 =
    .ok (.shrG #v[0x00, 0x01, 0x02, 0x03, 0x04, 0x05, 0x06, 0x07, 0x08, 0x09, 0x0a, 0x0b, 0x0c, 0x0d, 0x0e, 0x0f]) ∧
  decode 0x3052411ee55db4b8f198bfe0ae1127d4000015 =
    .ok (.shrS #v[0xd4, 0x27, 0x11, 0xae, 0xe0, 0xbf, 0x98, 0xf1, 0xb8, 0xb4, 0x5d, 0xe5, 0x1e, 0x41, 0x52, 0x30]) ∧
  decode 0x340737e0a29831318d305a88a8f64332000006 =
    .ok (.mixc #v[0x32, 0x43, 0xf6, 0xa8, 0x88, 0x5a, 0x30, 0x8d, 0x31, 0x31, 0x98, 0xa2, 0xe0, 0x37, 0x07, 0x34]) ∧
  decode 0x835712 = .error (.illegalOp 0x12)

/-- R73: a command word is spelled 0x and 38 hexadecimal digits, most significant first; a byte operation with S = 0 has 6.
That a word with an illegal OP and S = 0 has 6 digits too, and that letters are lower-case, is the model's (log 16). Read
back, the digits give the word. -/
def Obligations.HexSpellingReadsBack : Prop :=
  ∀ w : CmdWord, ∃ digits : List Char, spellWord w = '0' :: 'x' :: digits ∧
    (fieldOP w ∈ [0x05, 0x15, 0x06] ∨ fieldS w ≠ zeroBlock → digits.length = 38) ∧
    (fieldOP w ∉ [0x05, 0x15, 0x06] ∧ fieldS w = zeroBlock → digits.length = 6) ∧
    (∀ c ∈ digits, c ∈ "0123456789abcdef".toList) ∧
    digits.foldl (fun v c => 16 * v + "0123456789abcdef".toList.idxOf c) 0 = w.toNat

/-! ## Stepping -/

/-- When the host's next input is a word that decodes to i, step is exec of i, with the input taken and the word left on
the command port (R11, R30). -/
def Obligations.StepRunsTheDecodedInstruction : Prop :=
  ∀ (s : State) (w : CmdWord) (rest : List HostInput) (i : Instr), s.pending = .command w :: rest → decode w = .ok i →
    step s = exec i { s with pending := rest, cmd := some w }

/-- A word placed as the next input, in the opcode table's numbering, is what the next step runs. -/
def Obligations.PlacedWordRunsNext : Prop :=
  ∀ (s : State) (nbits w : Nat) (i : Instr), decodeTableWord nbits w = some i →
    step (s.withFetchWord nbits w) = exec i { s with cmd := some (tableWord nbits w) }

/-- R204, R200: an illegal OP byte raises ILLEGAL_OP: STATUS is 3, the fault with the OP byte is recorded, the mark set,
and nothing else is changed. That the step answers a next state is DEDUCED (log 4). -/
def Obligations.IllegalOpIsRecorded : Prop :=
  ∀ (s : State) (w : CmdWord) (rest : List HostInput), s.pending = .command w :: rest → fieldOP w ∉ legalOps →
    ∃ t, step s = .next t ∧ t.rsp.status = 3 ∧ t.outcomes = s.outcomes ++ [.fault (.illegalOp (fieldOP w))] ∧
      t.faultMark = true ∧ t.pending = rest ∧ t.cmd = some w

/-- R206: a legal command on any command word completes with STATUS = 0; decode raises only ILLEGAL_OP, the boundary
only INVALID_BYTE and DIMENSION. That an illegal OP's step answers a next state, with the fault recorded, is DEDUCED
(R204; log 4). -/
def Obligations.LegalCommandCompletes : Prop :=
  (∀ (s : State) (w : CmdWord) (rest : List HostInput), s.pending = .command w :: rest → fieldOP w ∈ legalOps →
    ∃ t, step s = .next t ∧ t.rsp.status = 0 ∧ t.outcomes = s.outcomes ++ [.ok t.rsp] ∧ t.faultMark = s.faultMark) ∧
  (∀ (s : State) (w : CmdWord) (rest : List HostInput), s.pending = .command w :: rest → fieldOP w ∉ legalOps →
    ∃ t, step s = .next t ∧ t.outcomes = s.outcomes ++ [.fault (.illegalOp (fieldOP w))]) ∧
  ∀ (c : Call) (info : FaultInfo), c.toInstr = .error (.fault info) → info.code = 1 ∨ info.code = 2

/-- R20: the response to a command depends on nothing but the command: from any two states, the outcomes are the same
fault, or two Ok responses that agree on STATUS and on every field the operation writes. -/
def Obligations.ResponseDependsOnCommandAlone : Prop :=
  ∀ (s s' : State) (w : CmdWord) (rest rest' : List HostInput),
    s.pending = .command w :: rest → s'.pending = .command w :: rest' →
    ∃ t t' o o', step s = .next t ∧ step s' = .next t' ∧ t.outcomes = s.outcomes ++ [o] ∧
      t'.outcomes = s'.outcomes ++ [o'] ∧ agreeOnWritten (fieldOP w) t.rsp t'.rsp ∧
      ((o = .ok t.rsp ∧ o' = .ok t'.rsp) ∨ ∃ info, o = .fault info ∧ o' = .fault info)

/-- R69: the response does not depend on a field the operation does not read. -/
def Obligations.UnreadFieldsAreDontCare : Prop :=
  ∀ (s : State) (w w' : CmdWord) (rest : List HostInput), agreeOnRead w w' →
    ∃ t t' o o', step { s with pending := .command w :: rest } = .next t ∧
      step { s with pending := .command w' :: rest } = .next t' ∧ t.outcomes = s.outcomes ++ [o] ∧
      t'.outcomes = s.outcomes ++ [o'] ∧ agreeOnWritten (fieldOP w) t.rsp t'.rsp ∧
      ((o = .ok t.rsp ∧ o' = .ok t'.rsp) ∨ ∃ info, o = .fault info ∧ o' = .fault info)

/-- The frame of all nine instructions (R29, R46): nothing is changed but the response and the run's record, which gains
this Ok response, and the model's own draw counter, which advances by one (DESIGN CHOICE, log 2); the command word, the
inputs to come and the fault mark stay. -/
def Obligations.InstructionFrame : Prop :=
  ∀ (i : Instr) (s t : State), exec i s = .next t →
    t.pending = s.pending ∧ t.cmd = s.cmd ∧ t.faultMark = s.faultMark ∧ t.outcomes = s.outcomes ++ [.ok t.rsp] ∧
      t.draws = s.draws + 1 ∧ t.rsp.status = 0

/-- Reset asserted changes nothing but the response word (R230, R232) and the model's own draw counter. -/
def Obligations.ResetInputFrame : Prop :=
  ∀ (s : State) (rest : List HostInput), s.pending = .reset :: rest →
    ∃ t, step s = .next t ∧ t.pending = rest ∧ t.cmd = s.cmd ∧ t.outcomes = s.outcomes ∧ t.faultMark = s.faultMark

/-- A step stops with a fault exactly at the end of the run, when the host presents nothing more (R241; log 6). -/
def Obligations.StepFaultsOnlyAtTheEnd : Prop :=
  ∀ (s : State) (r : Fault), step s = .fault r ↔ s.pending = [] ∧ r = .noCommand

/-! ## The run -/

/-- R30: a step records at most one outcome, and the sticky mark afterwards is set exactly when it was set before or that
outcome is a fault: it is never cleared. -/
def Obligations.FaultMarkIsSticky : Prop :=
  ∀ s t : State, step s = .next t →
    ∃ os, t.outcomes = s.outcomes ++ os ∧ os.length ≤ 1 ∧ t.faultMark = (s.faultMark || os.any CmdOutcome.isFault) ∧
      (s.faultMark = true → t.faultMark = true)

/-- Every step keeps the run's invariant: the mark is set exactly when a recorded outcome is a fault, every recorded Ok
response has STATUS 0, and every recorded fault is one R201 to R204 let the CORE or the boundary raise. -/
def Obligations.EveryStepKeepsTheRunInvariant : Prop := ∀ s t : State, s.Inv → step s = .next t → t.Inv

/-- The run's invariant holds at reset, with the mark clear (R32) and no outcome recorded. -/
def Obligations.ResetMeetsTheRunInvariant : Prop :=
  State.reset.Inv ∧ State.reset.faultMark = false ∧ State.reset.outcomes = []

/-- R30, R241: a run of any finite list of command words ends, with one more outcome for each; no fault is recorded
exactly when none was before and every OP byte is legal. -/
def Obligations.RunRecordsOneOutcomePerCommand : Prop :=
  ∀ (ws : List CmdWord) (s : State), s.pending = ws.map .command →
    ∃ t : State, Host.Core.run core ws.length s = .next t ∧ t.pending = [] ∧
      (∃ os, t.observation.1 = s.observation.1 ++ os ∧ os.length = ws.length) ∧
      (t.noFaultRecorded = true ↔ s.noFaultRecorded = true ∧ ∀ w ∈ ws, fieldOP w ∈ legalOps)

/-- R207: what faulted once faults again, from any state, with the same code and info. -/
def Obligations.RetryFaultsAgain : Prop :=
  ∀ (s s' t : State) (x : HostInput) (rest rest' : List HostInput) (info : FaultInfo),
    s.pending = x :: rest → s'.pending = x :: rest' → step s = .next t → t.outcomes = s.outcomes ++ [.fault info] →
    ∃ t', step s' = .next t' ∧ t'.outcomes = s'.outcomes ++ [.fault info] ∧ t'.rsp.status = t.rsp.status

/-! ## GF(2^8) arithmetic -/

/-- GF.DBL (R101, R104): below 0x80 RB is twice A; from 0x80 on it is twice A, cut to 8 bits, XOR 0x1B. -/
def Obligations.GfDblDoublesInTheField : Prop :=
  ∀ (a : Byte) (s : State), ∃ t, exec (.gfDbl a) s = .next t ∧ t.rsp.status = 0 ∧
    (a.toNat < 0x80 → t.rsp.rb.toNat = 2 * a.toNat) ∧
    (0x80 ≤ a.toNat → t.rsp.rb = BitVec.ofNat 8 (2 * a.toNat) ^^^ 0x1B)

/-- GF.MUL (R105, R106): RB is the carry-less product of A and B reduced modulo 0x11B. -/
def Obligations.GfMulIsThePolynomialProduct : Prop :=
  ∀ (a b : Byte) (s : State), ∃ t, exec (.gfMul a b) s = .next t ∧ t.rsp.status = 0 ∧
    t.rsp.rb = polyReduce (polyMul a b)

/-- R106: double-and-add gives the carry-less product, of degree at most 14, reduced modulo 0x11B: the product is a
multiple of 0x11B plus the result. -/
def Obligations.DoubleAndAddIsTheReducedProduct : Prop :=
  ∀ x y : Byte, gmul x y = polyReduce (polyMul x y) ∧ (polyMul x y).toNat < 2 ^ 15 ∧
    ∃ q : Byte, polyMul x y =
      (List.range 8).foldl (fun p i => if q.getLsbD i then p ^^^ (0x11B#16 <<< i) else p) 0 ^^^ (gmul x y).setWidth 16

/-- R102: the laws of xtime. -/
def Obligations.XtimeLaws : Prop :=
  (∀ b : Byte, b.toNat < 0x80 → (xtime b).toNat = 2 * b.toNat % 256) ∧
  (∀ b : Byte, 0x80 ≤ b.toNat → (xtime b).toNat = (2 * b.toNat % 256) ^^^ 0x1B) ∧
  (∀ p q : Byte, xtime (p ^^^ q) = xtime p ^^^ xtime q) ∧ Function.Bijective xtime ∧
  ∀ b : Byte, xtime b = gmul b 0x02

/-- R107: the field laws (a) to (g). -/
def Obligations.FieldLaws : Prop :=
  (∀ x y : Byte, (gmul x y).toNat ≤ 255) ∧ (∀ x : Byte, gmul x 1 = x) ∧ (∀ x : Byte, gmul x 0 = 0) ∧
  (∀ x y : Byte, gmul x y = gmul y x) ∧ (∀ x y z : Byte, gmul (gmul x y) z = gmul x (gmul y z)) ∧
  (∀ x y z : Byte, gmul x (y ^^^ z) = gmul x y ^^^ gmul x z) ∧
  ∀ x : Byte, x ≠ 0 → (∃! y : Byte, gmul x y = 1) ∧ gmul x ((fun p => gmul p x)^[254] 1) = 1

/-! ## The affine layer -/

/-- R120: `M[i][j] = 1` exactly when (j − i) mod 8 is 0, 4, 5, 6 or 7; the constant is 0x63. The matrix bits are a choice,
from general knowledge (D13; PRESUMED, log 8). -/
def Obligations.ForwardMatrixBits : Prop :=
  (∀ i j : Fin 8, AFFINE_FWD_MATRIX[i].getLsbD j.val = true ↔ (j.val + 8 - i.val) % 8 ∈ [0, 4, 5, 6, 7]) ∧
  AFFINE_FWD_CONST = 0x63

/-- R121: `N[i][j] = 1` exactly when (j − i) mod 8 is 2, 5 or 7; N·M is the identity; N applied to 0x63 is 0x05;
with the paired constants the composition is the identity. The bits of N follow from those of M, a choice from general
knowledge (D13; PRESUMED, log 8). -/
def Obligations.InverseMatrixBits : Prop :=
  (∀ i j : Fin 8, AFFINE_INV_MATRIX[i].getLsbD j.val = true ↔ (j.val + 8 - i.val) % 8 ∈ [2, 5, 7]) ∧
  (∀ i j : Fin 8, rowProduct AFFINE_INV_MATRIX[i] (columnBits AFFINE_FWD_MATRIX j.val) = decide (i = j)) ∧
  affineGeneral AFFINE_INV_MATRIX 0 0x63 = 0x05 ∧ AFFINE_INV_CONST = 0x05 ∧
  ∀ b : Byte, affineGeneral AFFINE_INV_MATRIX AFFINE_INV_CONST (affineGeneral AFFINE_FWD_MATRIX AFFINE_FWD_CONST b) = b

/-- R121, R122, R128, for any parameter matrix: with N·M the identity, the general strategy with N and the constant N·k
undoes the general strategy with M and k. -/
def Obligations.InverseMatrixUndoesForward : Prop :=
  ∀ (m n : BitMatrix) (k b : Byte),
    (∀ i j : Fin 8, rowProduct n[i] (columnBits m j.val) = decide (i = j)) →
    affineGeneral n (affineGeneral n 0 k) (affineGeneral m k b) = b

/-- R122: the general strategy is affine for every matrix and constant, and its bit i is the XOR of the AND of row i with
the input, XOR bit i of the constant. -/
def Obligations.GeneralStrategyIsAffine : Prop :=
  ∀ (m : BitMatrix) (k p q : Byte),
    affineGeneral m k (p ^^^ q) = affineGeneral m k p ^^^ affineGeneral m k q ^^^ k ∧
    ∀ i : Fin 8, (affineGeneral m k p).getLsbD i.val =
      (decide (((List.range 8).countP fun j => m[i].getLsbD j && p.getLsbD j) % 2 = 1) ^^ k.getLsbD i.val)

/-- AFF.FWD.G and AFF.FWD.S (R120, R124, R125): bit i of RB is the XOR of input bits i, i+4, i+5, i+6 and i+7 (mod 8)
and bit i of 0x63. The matrix bits are log 8's (D13). -/
def Obligations.AffFwdBits : Prop :=
  ∀ (a : Byte) (s : State),
    (∃ t, exec (.affFwdG a) s = .next t ∧ t.rsp.status = 0 ∧ ∀ i < 8, t.rsp.rb.getLsbD i =
      (a.getLsbD i ^^ a.getLsbD ((i + 4) % 8) ^^ a.getLsbD ((i + 5) % 8) ^^ a.getLsbD ((i + 6) % 8) ^^
        a.getLsbD ((i + 7) % 8) ^^ (0x63#8).getLsbD i)) ∧
    (∃ t, exec (.affFwdS a) s = .next t ∧ t.rsp.status = 0 ∧ ∀ i < 8, t.rsp.rb.getLsbD i =
      (a.getLsbD i ^^ a.getLsbD ((i + 4) % 8) ^^ a.getLsbD ((i + 5) % 8) ^^ a.getLsbD ((i + 6) % 8) ^^
        a.getLsbD ((i + 7) % 8) ^^ (0x63#8).getLsbD i))

/-- AFF.INV.G and AFF.INV.S (R121, R126, R127): bit i of RB is the XOR of input bits i+2, i+5 and i+7 (mod 8) and bit i
of 0x05. The matrix bits are log 8's (D13). -/
def Obligations.AffInvBits : Prop :=
  ∀ (a : Byte) (s : State),
    (∃ t, exec (.affInvG a) s = .next t ∧ t.rsp.status = 0 ∧ ∀ i < 8, t.rsp.rb.getLsbD i =
      (a.getLsbD ((i + 2) % 8) ^^ a.getLsbD ((i + 5) % 8) ^^ a.getLsbD ((i + 7) % 8) ^^ (0x05#8).getLsbD i)) ∧
    (∃ t, exec (.affInvS a) s = .next t ∧ t.rsp.status = 0 ∧ ∀ i < 8, t.rsp.rb.getLsbD i =
      (a.getLsbD ((i + 2) % 8) ^^ a.getLsbD ((i + 5) % 8) ^^ a.getLsbD ((i + 7) % 8) ^^ (0x05#8).getLsbD i))

/-- R123: the byte-wide forms of the specialized strategies, for the matrices of log 8 (D13). -/
def Obligations.SpecializedByteWideForms : Prop :=
  ∀ b : Byte,
    affineFwdFast b =
      b ^^^ b.rotateLeft 1 ^^^ b.rotateLeft 2 ^^^ b.rotateLeft 3 ^^^ b.rotateLeft 4 ^^^ 0x63 ∧
    affineInvFast b = b.rotateLeft 1 ^^^ b.rotateLeft 3 ^^^ b.rotateLeft 6 ^^^ 0x05

/-- R128: AFF.INV.x applied to the RB of AFF.FWD.y returns the original A, and AFF.FWD.y applied to the RB of AFF.INV.x
does too, for every choice of strategies. -/
def Obligations.AffineRoundTrip : Prop :=
  ∀ (a : Byte) (s s' : State), ∀ fwd ∈ [Instr.affFwdG, Instr.affFwdS], ∀ inv ∈ [Instr.affInvG, Instr.affInvS],
    (∃ t u, exec (fwd a) s = .next t ∧ exec (inv t.rsp.rb) s' = .next u ∧ u.rsp.rb = a) ∧
    (∃ t u, exec (inv a) s = .next t ∧ exec (fwd t.rsp.rb) s' = .next u ∧ u.rsp.rb = a)

/-- R129: the general and the specialized strategy give the same byte, both ways. -/
def Obligations.AffineStrategiesAgree : Prop :=
  ∀ b : Byte, affineGeneral AFFINE_FWD_MATRIX 0x63 b = affineFwdFast b ∧
    affineGeneral AFFINE_INV_MATRIX 0x05 b = affineInvFast b

/-! ## Row permutation -/

/-- SHR.G and SHR.S (R150): `out[r][c] = in[r][(c + r) mod 4]`, with `st[r][c]` at lane r + 4c. -/
def Obligations.ShiftRowsRotatesEachRow : Prop :=
  ∀ (st : Block) (s : State),
    (∃ t, exec (.shrG st) s = .next t ∧ t.rsp.status = 0 ∧ ∀ r c : Fin 4,
      t.rsp.rs[r.val + 4 * c.val] = st[r.val + 4 * ((c.val + r.val) % 4)]) ∧
    (∃ t, exec (.shrS st) s = .next t ∧ t.rsp.status = 0 ∧ ∀ r c : Fin 4,
      t.rsp.rs[r.val + 4 * c.val] = st[r.val + 4 * ((c.val + r.val) % 4)])

/-- R151: `SHR_TABLE[k] = r + 4·((c + r) mod 4)` with r = k mod 4 and c = k div 4. -/
def Obligations.ShiftRowsTableEntries : Prop :=
  ∀ k : Fin 16, (SHR_TABLE[k]).val = k.val % 4 + 4 * ((k.val / 4 + k.val % 4) % 4)

/-- R155: the two strategies give the same RS for every value of S, from any states. -/
def Obligations.ShiftRowsStrategiesAgree : Prop :=
  ∀ (st : Block) (s s' : State), ∃ t t', exec (.shrG st) s = .next t ∧ exec (.shrS st) s' = .next t' ∧
    t.rsp.rs = t'.rsp.rs ∧ t.rsp.status = t'.rsp.status

/-- R156: the properties (a) to (d) of the permutation, and three applications inverting it. -/
def Obligations.ShiftRowsPermutationLaws : Prop :=
  Function.Bijective shiftRowsTable ∧ (∀ f : Block, shiftRowsTable^[4] f = f) ∧
  (∀ (f : Block) (r : Fin 4), List.Perm (toMatrix (shiftRowsTable f))[r].toList (toMatrix f)[r].toList) ∧
  (∀ p q : Block, shiftRowsTable (Vector.zipWith (· ^^^ ·) p q) =
    Vector.zipWith (· ^^^ ·) (shiftRowsTable p) (shiftRowsTable q)) ∧
  (∀ (g : Byte → Byte) (f : Block), shiftRowsTable (f.map g) = (shiftRowsTable f).map g) ∧
  ∀ f : Block, shiftRowsTable^[3] (shiftRowsTable f) = f

/-! ## Column mixing -/

/-- R170: the four rows of MDS; each row is the row above rotated right by one. -/
def Obligations.MdsIsCirculant : Prop :=
  MDS[0].toList = [2, 3, 1, 1] ∧ MDS[1].toList = [1, 2, 3, 1] ∧ MDS[2].toList = [1, 1, 2, 3] ∧
  MDS[3].toList = [3, 1, 1, 2] ∧ ∀ row k : Fin 4, MDS[row + 1][k + 1] = MDS[row][k]

/-- MIXC (R171, R172): the written-out column transform on each column, with 2·v = xtime(v) and 3·v = xtime(v) XOR v. -/
def Obligations.MixcMixesEachColumn : Prop :=
  ∀ (st : Block) (s : State), ∃ t, exec (.mixc st) s = .next t ∧ t.rsp.status = 0 ∧ ∀ c : Fin 4,
    t.rsp.rs[4 * c.val] =
      xtime st[4 * c.val] ^^^ (xtime st[4 * c.val + 1] ^^^ st[4 * c.val + 1]) ^^^ st[4 * c.val + 2] ^^^ st[4 * c.val + 3] ∧
    t.rsp.rs[4 * c.val + 1] =
      st[4 * c.val] ^^^ xtime st[4 * c.val + 1] ^^^ (xtime st[4 * c.val + 2] ^^^ st[4 * c.val + 2]) ^^^ st[4 * c.val + 3] ∧
    t.rsp.rs[4 * c.val + 2] =
      st[4 * c.val] ^^^ st[4 * c.val + 1] ^^^ xtime st[4 * c.val + 2] ^^^ (xtime st[4 * c.val + 3] ^^^ st[4 * c.val + 3]) ∧
    t.rsp.rs[4 * c.val + 3] =
      (xtime st[4 * c.val] ^^^ st[4 * c.val]) ^^^ st[4 * c.val + 1] ^^^ st[4 * c.val + 2] ^^^ xtime st[4 * c.val + 3]

/-- R173: output column c depends only on input column c. -/
def Obligations.ColumnsAreIndependent : Prop :=
  ∀ (f g : Block) (c : Fin 4), columnOf f c = columnOf g c → columnOf (mixColumns f) c = columnOf (mixColumns g) c

/-- R174: MIXC is linear, a bijection of order four, and three applications invert it, with the images of the column
(01, 00, 00, 00). -/
def Obligations.MixColumnsLaws : Prop :=
  (∀ p q : Block, mixColumns (Vector.zipWith (· ^^^ ·) p q) =
    Vector.zipWith (· ^^^ ·) (mixColumns p) (mixColumns q)) ∧
  Function.Bijective mixColumns ∧ (∀ f : Block, mixColumns^[4] f = f) ∧
  (∀ f : Block, mixColumns^[3] (mixColumns f) = f) ∧
  mixColumn #v[0x01, 0x00, 0x00, 0x00] = #v[0x02, 0x01, 0x01, 0x03] ∧
  mixColumn #v[0x02, 0x01, 0x01, 0x03] = #v[0x05, 0x00, 0x04, 0x00] ∧
  mixColumn #v[0x05, 0x00, 0x04, 0x00] = #v[0x0e, 0x09, 0x0d, 0x0b] ∧
  mixColumn #v[0x0e, 0x09, 0x0d, 0x0b] = #v[0x01, 0x00, 0x00, 0x00]

/-! ## The boundary -/

/-- R202: ToByte takes 0-255 as 8 bits and raises INVALID_BYTE with the operand and the value for every other integer, for
A of GF.DBL, GF.MUL and the affine operations and for B of GF.MUL; what is no integer is refused (D23). That an x out of
range is reported for GF.MUL whatever y is, a value that is no integer included, is the order A before B (R208, D12;
DEDUCED, log 13). -/
def Obligations.ToByteNeverTruncates : Prop :=
  (∀ (operand : Operand) (v : Int), 0 ≤ v ∧ v ≤ 255 → ∃ b, toByte operand (.int v) = .ok b ∧ (b.toNat : Int) = v) ∧
  (∀ (operand : Operand) (v : Int), ¬(0 ≤ v ∧ v ≤ 255) →
    toByte operand (.int v) = .error (.fault (.invalidByte operand v))) ∧
  (∀ (operand : Operand) (rows : List (List Int)) (xs : List Int), toByte operand (.nested rows) = .error .notNumeric ∧
    toByte operand (.flat xs) = .error .notNumeric ∧ toByte operand .other = .error .notNumeric) ∧
  (∀ v : Int, ¬(0 ≤ v ∧ v ≤ 255) →
    (∀ c ∈ [Call.gfDbl, Call.affFwdG, Call.affFwdS, Call.affInvG, Call.affInvS],
      (c (.int v)).toInstr = .error (.fault (.invalidByte .A v))) ∧
    (∀ y, (Call.gfMul (.int v) y).toInstr = .error (.fault (.invalidByte .A v))) ∧
    (∀ x : Int, 0 ≤ x ∧ x ≤ 255 → (Call.gfMul (.int x) (.int v)).toInstr = .error (.fault (.invalidByte .B v))))

/-- R203: ToState on well-shaped values in range gives `st[r][c] = L[r][c]`, or `F[r + 4c]`; any other shape raises
DIMENSION with the shape; a well-shaped value with elements out of range raises INVALID_BYTE for the least k. -/
def Obligations.ToStateShapesAndRanges : Prop :=
  (∀ rows : List (List Int), rows.length = 4 → (∀ row ∈ rows, row.length = 4) →
    (∀ row ∈ rows, ∀ v ∈ row, 0 ≤ v ∧ v ≤ 255) →
    ∃ st : Block, toBlock (.nested rows) = .ok st ∧
      ∀ (r c : Fin 4), (rows[r.val]?.bind (·[c.val]?)) = some ((st[r.val + 4 * c.val]).toNat : Int)) ∧
  (∀ xs : List Int, xs.length = 16 → (∀ v ∈ xs, 0 ≤ v ∧ v ≤ 255) →
    ∃ st : Block, toBlock (.flat xs) = .ok st ∧ ∀ k : Fin 16, xs[k.val]? = some ((st[k]).toNat : Int)) ∧
  (∀ rows : List (List Int), ¬(rows.length = 4 ∧ ∀ row ∈ rows, row.length = 4) →
    toBlock (.nested rows) = .error (.fault (.dimension (.nested (rows.map List.length))))) ∧
  (∀ xs : List Int, xs.length ≠ 16 → toBlock (.flat xs) = .error (.fault (.dimension (.flat xs.length)))) ∧
  (∀ (rows : List (List Int)) (k : Fin 16) (v : Int), rows.length = 4 → (∀ row ∈ rows, row.length = 4) →
    (rows[k.val % 4]?.bind (·[k.val / 4]?)) = some v → ¬(0 ≤ v ∧ v ≤ 255) →
    (∀ j < k.val, ∀ u, (rows[j % 4]?.bind (·[j / 4]?)) = some u → 0 ≤ u ∧ u ≤ 255) →
    toBlock (.nested rows) = .error (.fault (.invalidByte (.S k.val) v))) ∧
  (∀ (xs : List Int) (k : Nat) (v : Int), xs.length = 16 → xs[k]? = some v → ¬(0 ≤ v ∧ v ≤ 255) →
    (∀ j < k, ∀ u, xs[j]? = some u → 0 ≤ u ∧ u ≤ 255) →
    toBlock (.flat xs) = .error (.fault (.invalidByte (.S k) v))) ∧
  ∀ x : CallerValue,
    (∀ st, toBlock x = .ok st → (Call.shrG x).toInstr = .ok (.shrG st) ∧ (Call.shrS x).toInstr = .ok (.shrS st) ∧
      (Call.mixc x).toInstr = .ok (.mixc st)) ∧
    (∀ e, toBlock x = .error e → (Call.shrG x).toInstr = .error e ∧ (Call.shrS x).toInstr = .error e ∧
      (Call.mixc x).toInstr = .error e)

/-- R74: a Call whose values convert is the command word encode builds, with 0 in every field the operation does not
read; in-range integers convert to the operands of their own value. -/
def Obligations.CallBuildsTheCommandWord : Prop :=
  (∀ (s : State) (c : Call) (i : Instr) (rest : List HostInput), s.pending = .call c :: rest → c.toInstr = .ok i →
    step s = step { s with pending := .command (encode i) :: rest }) ∧
  (∀ i : Instr, fieldOP (encode i) = i.op ∧ (readsA i.op = false → fieldA (encode i) = 0) ∧
    (readsB i.op = false → fieldB (encode i) = 0) ∧ (readsS i.op = false → fieldS (encode i) = zeroBlock)) ∧
  (∀ a b : Byte, (Call.gfDbl (.int a.toNat)).toInstr = .ok (.gfDbl a) ∧
    (Call.gfMul (.int a.toNat) (.int b.toNat)).toInstr = .ok (.gfMul a b) ∧
    (Call.affFwdG (.int a.toNat)).toInstr = .ok (.affFwdG a) ∧ (Call.affFwdS (.int a.toNat)).toInstr = .ok (.affFwdS a) ∧
    (Call.affInvG (.int a.toNat)).toInstr = .ok (.affInvG a) ∧ (Call.affInvS (.int a.toNat)).toInstr = .ok (.affInvS a))

/-- R200, R209: a boundary error ends the Call: STATUS holds its code, the fault is recorded and the mark set; no command
word is built, so the command port is as it was. -/
def Obligations.BoundaryErrorIsRecorded : Prop :=
  ∀ (s : State) (c : Call) (rest : List HostInput) (info : FaultInfo), s.pending = .call c :: rest →
    c.toInstr = .error (.fault info) →
    ∃ t, step s = .next t ∧ t.rsp.status = info.code ∧ t.outcomes = s.outcomes ++ [.fault info] ∧ t.faultMark = true ∧
      t.pending = rest ∧ t.cmd = s.cmd

/-- D23: a Call is refused, in each operation, on every value that is not of the kind the operation takes: a list of
either form or anything else for a Byte, an integer or anything else for a State. For GF.MUL such an x is refused
whatever y is, and such a y when x is in range: the order A before B (R208, D12; DEDUCED, log 13). -/
def Obligations.NonNumbersAreRefused : Prop :=
  ∀ (s : State) (rest : List HostInput) (rows : List (List Int)) (xs : List Int) (v x : Int) (y : CallerValue),
    (∀ b ∈ [CallerValue.nested rows, .flat xs, .other],
      (∀ op ∈ [Call.gfDbl, Call.affFwdG, Call.affFwdS, Call.affInvG, Call.affInvS],
        s.pending = .call (op b) :: rest → step s = .refused .notNumeric) ∧
      (s.pending = .call (.gfMul b y) :: rest → step s = .refused .notNumeric) ∧
      (0 ≤ x ∧ x ≤ 255 → s.pending = .call (.gfMul (.int x) b) :: rest → step s = .refused .notNumeric)) ∧
    (∀ st ∈ [CallerValue.int v, .other], ∀ op ∈ [Call.shrG, Call.shrS, Call.mixc],
      s.pending = .call (op st) :: rest → step s = .refused .notNumeric)

/-! ## Several instances -/

/-- R31, R216: a step of instance k is its own step, and changes no other instance. -/
def Obligations.InstancesShareNothing : Prop :=
  ∀ (n : Nat) (cores next : Instances n) (k : Fin n), cores.stepOne k = .next next →
    step cores[k] = .next next[k] ∧ ∀ j : Fin n, j ≠ k → next[j] = cores[j]

/-- R49, R216: steps of two instances can be taken in either order, with the same result. -/
def Obligations.InstanceStepsCommute : Prop :=
  ∀ (n : Nat) (cores afterJ afterK : Instances n) (j k : Fin n), j ≠ k →
    cores.stepOne j = .next afterJ → cores.stepOne k = .next afterK →
    ∃ both, afterJ.stepOne k = .next both ∧ afterK.stepOne j = .next both
end

