-- ==== Sys2Proof/Laws/Word.lean ====
section
/-! SUPPORT. The command word's fields and lanes read back what was packed (30_encoding.md R60, R62). -/

namespace Sys2Proof

/-- Bit i of lane k of a State field is its bit 8k + i (R62). -/
theorem lanesOf_getElem (x : BitVec 128) (k : Nat) (h : k < 16) : (lanesOf x)[k] = x.extractLsb' (8 * k) 8 := by
  simp [lanesOf]

/-- A bit of an OR over a list is set when it is set in the start value or in one of the terms. -/
theorem getLsbD_foldl_or {α : Type} {w : Nat} (g : α → BitVec w) (l : List α) (x : BitVec w) (i : Nat) :
    (l.foldl (fun x k => x ||| g k) x).getLsbD i = (x.getLsbD i || l.any fun k => (g k).getLsbD i) := by
  induction l generalizing x with
  | nil => simp
  | cons a l ih => simp [ih, Bool.or_assoc]

/-- Bit j of the packed State field is bit j mod 8 of lane j div 8. -/
theorem packLanes_getLsbD (f : Block) (j : Nat) (h : j < 128) :
    (packLanes f).getLsbD j = (f[j / 8]).getLsbD (j % 8) := by
  unfold packLanes
  rw [getLsbD_foldl_or (fun k : Fin 16 => f[k].setWidth 128 <<< (8 * k.val)), Bool.eq_iff_iff]
  simp only [BitVec.ofNat_eq_ofNat, BitVec.getLsbD_zero, Bool.false_or, List.any_eq_true, List.mem_finRange, true_and, BitVec.getLsbD_shiftLeft,
    BitVec.getLsbD_setWidth, Bool.and_eq_true, decide_eq_true_eq, Bool.not_eq_true', decide_eq_false_iff_not]
  constructor
  · rintro ⟨k, ⟨-, hk⟩, -, hb⟩
    have hlt := BitVec.lt_of_getLsbD hb
    have e : j / 8 = k.val := by omega
    have e' : j % 8 = j - 8 * k.val := by omega
    simpa [e, e'] using hb
  · intro hb
    refine ⟨⟨j / 8, by omega⟩, ⟨h, by simp only; omega⟩, by omega, ?_⟩
    have e : j - 8 * (j / 8) = j % 8 := by omega
    simpa [e] using hb

/-- Lane k of the field packed from f is byte k of f. -/
theorem packLanes_lane (f : Block) (k : Nat) (h : k < 16) : (packLanes f).extractLsb' (8 * k) 8 = f[k] := by
  apply BitVec.eq_of_getLsbD_eq; intro i hi
  have e : (8 * k + i) / 8 = k := by omega
  have e' : (8 * k + i) % 8 = i := by omega
  simp [hi, packLanes_getLsbD f (8 * k + i) (by omega), e, e']

theorem lanesOf_packLanes (f : Block) : lanesOf (packLanes f) = f := by
  ext k hk : 1
  rw [lanesOf_getElem _ _ hk, packLanes_lane f k hk]

/-- Bit i of a packed command word, by the field it falls in (R60). -/
theorem packCmd_getLsbD (op a b : Byte) (s : Block) (i : Nat) (h : i < 152) :
    (packCmd op a b s).getLsbD i =
      (op.getLsbD i || (!decide (i < 8) && a.getLsbD (i - 8)) || (!decide (i < 16) && b.getLsbD (i - 16)) ||
        (!decide (i < 24) && (packLanes s).getLsbD (i - 24))) := by
  have h8 : i - 8 < 152 := by omega
  have h16 : i - 16 < 152 := by omega
  have h24 : i - 24 < 152 := by omega
  simp only [packCmd, BitVec.getLsbD_or, BitVec.getLsbD_shiftLeft, BitVec.getLsbD_setWidth, h, h8, h16, h24, decide_true,
    Bool.true_and]

theorem fieldOP_packCmd (op a b : Byte) (s : Block) : fieldOP (packCmd op a b s) = op := by
  apply BitVec.eq_of_getLsbD_eq; intro i hi
  have h2 : i < 16 := by omega
  have h3 : i < 24 := by omega
  simp [fieldOP, packCmd_getLsbD op a b s i (by omega), hi, h2, h3]

theorem fieldA_packCmd (op a b : Byte) (s : Block) : fieldA (packCmd op a b s) = a := by
  apply BitVec.eq_of_getLsbD_eq; intro i hi
  have h2 : 8 + i < 16 := by omega
  have h3 : 8 + i < 24 := by omega
  simp [fieldA, packCmd_getLsbD op a b s (8 + i) (by omega), hi, h2, h3]

theorem fieldB_packCmd (op a b : Byte) (s : Block) : fieldB (packCmd op a b s) = b := by
  apply BitVec.eq_of_getLsbD_eq; intro i hi
  have h3 : 16 + i < 24 := by omega
  have h4 := BitVec.getLsbD_of_ge op (16 + i) (by omega)
  have h5 := BitVec.getLsbD_of_ge a (16 + i - 8) (by omega)
  simp [fieldB, packCmd_getLsbD op a b s (16 + i) (by omega), hi, h3, h4, h5]

theorem fieldS_packCmd (op a b : Byte) (s : Block) : fieldS (packCmd op a b s) = s := by
  have h : (packCmd op a b s).extractLsb' 24 128 = packLanes s := by
    apply BitVec.eq_of_getLsbD_eq; intro i hi
    have h4 := BitVec.getLsbD_of_ge op (24 + i) (by omega)
    have h5 := BitVec.getLsbD_of_ge a (24 + i - 8) (by omega)
    have h6 := BitVec.getLsbD_of_ge b (24 + i - 16) (by omega)
    simp [packCmd_getLsbD op a b s (24 + i) (by omega), hi, h4, h5, h6]
  rw [fieldS, h, lanesOf_packLanes]

end Sys2Proof
end

