-- ==== Sys2Proof/Laws/Arith.lean ====
section
/-! SUPPORT. One lemma per function of the four components: the product's eight iterations, the bits of an affine
result, the lanes of a permuted and of a mixed State. -/

namespace Sys2Proof.Machine

/-- The eight iterations of the product, from the first bit of y to the last. -/
theorem gmul_eq (x y : Byte) :
    gmul x y = (gmulIteration y (gmulIteration y (gmulIteration y (gmulIteration y (gmulIteration y
      (gmulIteration y (gmulIteration y (gmulIteration y (0, x) 0) 1) 2) 3) 4) 5) 6) 7).1 := rfl

theorem bitVector8_getElem (b : Byte) (j : Nat) (h : j < 8) : (bitVector8 b)[j] = b.getLsbD j := by
  simp [bitVector8, -BitVec.getLsbD_eq_getElem]

/-- Bit i of the repacked byte is entry i. -/
theorem repack_getLsbD (y : Vector Bool 8) (i : Nat) (h : i < 8) : (repack y).getLsbD i = y[i] := by
  unfold repack
  rw [getLsbD_foldl_or (fun k : Fin 8 => (BitVec.ofBool y[k]).setWidth 8 <<< k.val), Bool.eq_iff_iff]
  simp only [BitVec.ofNat_eq_ofNat, BitVec.getLsbD_zero, Bool.false_or, List.any_eq_true, List.mem_finRange, true_and,
    BitVec.getLsbD_shiftLeft, BitVec.getLsbD_setWidth, Bool.and_eq_true, decide_eq_true_eq, Bool.not_eq_true',
    decide_eq_false_iff_not, BitVec.getLsbD_ofBool]
  constructor
  · rintro ⟨k, ⟨-, hk⟩, -, hz, hb⟩
    have e : i = k.val := by omega
    simpa [e] using hb
  · exact fun hb => ⟨⟨i, h⟩, ⟨h, by simp⟩, by omega, by simp, hb⟩

/-- Bit i of the general strategy's result is row i's product XOR bit i of the constant (R122). -/
theorem affineGeneral_getLsbD (m : BitMatrix) (k b : Byte) (i : Nat) (h : i < 8) :
    (affineGeneral m k b).getLsbD i = (rowProduct m[i] (bitVector8 b) ^^ k.getLsbD i) := by
  simp [affineGeneral, repack_getLsbD _ i h, -BitVec.getLsbD_eq_getElem]

theorem toMatrix_getElem (f : Block) (r c : Nat) (hr : r < 4) (hc : c < 4) : (toMatrix f)[r][c] = f[r + 4 * c] := by
  simp [toMatrix]

theorem ofMatrix_getElem (st : Matrix) (k : Nat) (h : k < 16) :
    (ofMatrix st)[k] = (st[k % 4]'(by omega))[k / 4]'(by omega) := by
  simp [ofMatrix]

theorem shiftRowsGeneral_getElem (st : Matrix) (r c : Nat) (hr : r < 4) (hc : c < 4) :
    (shiftRowsGeneral st)[r][c] = st[r][(c + r) % 4]'(by omega) := by
  simp [shiftRowsGeneral]

theorem shiftRowsTable_getElem (f : Block) (k : Nat) (h : k < 16) : (shiftRowsTable f)[k] = f[SHR_TABLE[k]] := by
  simp [shiftRowsTable]

/-- The four rows of the column transform, with the coefficients of MDS (R170, R171). -/
theorem mixColumn_row0 (a : Column) :
    (mixColumn a)[0] = gmul 2 a[0] ^^^ gmul 3 a[1] ^^^ gmul 1 a[2] ^^^ gmul 1 a[3] := by
  simp only [mixColumn, Vector.getElem_ofFn, List.finRange_succ, List.finRange_zero, List.map_cons, List.map_nil,
    List.foldl_cons, List.foldl_nil, BitVec.ofNat_eq_ofNat, BitVec.zero_xor]
  rfl

theorem mixColumn_row1 (a : Column) :
    (mixColumn a)[1] = gmul 1 a[0] ^^^ gmul 2 a[1] ^^^ gmul 3 a[2] ^^^ gmul 1 a[3] := by
  simp only [mixColumn, Vector.getElem_ofFn, List.finRange_succ, List.finRange_zero, List.map_cons, List.map_nil,
    List.foldl_cons, List.foldl_nil, BitVec.ofNat_eq_ofNat, BitVec.zero_xor]
  rfl

theorem mixColumn_row2 (a : Column) :
    (mixColumn a)[2] = gmul 1 a[0] ^^^ gmul 1 a[1] ^^^ gmul 2 a[2] ^^^ gmul 3 a[3] := by
  simp only [mixColumn, Vector.getElem_ofFn, List.finRange_succ, List.finRange_zero, List.map_cons, List.map_nil,
    List.foldl_cons, List.foldl_nil, BitVec.ofNat_eq_ofNat, BitVec.zero_xor]
  rfl

theorem mixColumn_row3 (a : Column) :
    (mixColumn a)[3] = gmul 3 a[0] ^^^ gmul 1 a[1] ^^^ gmul 1 a[2] ^^^ gmul 2 a[3] := by
  simp only [mixColumn, Vector.getElem_ofFn, List.finRange_succ, List.finRange_zero, List.map_cons, List.map_nil,
    List.foldl_cons, List.foldl_nil, BitVec.ofNat_eq_ofNat, BitVec.zero_xor]
  rfl

theorem mixColumns_getElem (f : Block) (k : Nat) (h : k < 16) :
    (mixColumns f)[k] = (mixColumn (columnOf f ⟨k / 4, by omega⟩))[k % 4]'(by omega) := by
  simp [mixColumns]

end Sys2Proof.Machine
end

