-- ==== Sys2Proof/Laws/Decode.lean ====
section
/-! SUPPORT. What decode answers, by the OP byte (30_encoding.md R67). -/

namespace Sys2Proof

/-- An OP byte outside the nine is rejected by name. -/
theorem decode_illegal {w : CmdWord} (h : fieldOP w ∉ legalOps) : decode w = .error (.illegalOp (fieldOP w)) := by
  simp only [legalOps, List.mem_cons, not_or, List.not_mem_nil, not_false_eq_true, and_true] at h
  obtain ⟨h1, h2, h3, h4, h5, h6, h7, h8, h9⟩ := h
  simp only [decode, if_neg h1, if_neg h2, if_neg h3, if_neg h4, if_neg h5, if_neg h6, if_neg h7, if_neg h8, if_neg h9]

/-- One of the nine OP bytes gives an instruction with that OP byte. -/
theorem decode_legal {w : CmdWord} (h : fieldOP w ∈ legalOps) : ∃ i, decode w = .ok i ∧ i.op = fieldOP w := by
  simp only [legalOps, List.mem_cons, List.not_mem_nil, or_false] at h
  rcases h with h | h | h | h | h | h | h | h | h <;> (unfold decode; rw [h]; exact ⟨_, rfl, rfl⟩)

/-- Decode rejects with the word's own OP byte, and only outside the nine. -/
theorem decode_error {w : CmdWord} {op : Byte} (h : decode w = .error (.illegalOp op)) :
    op = fieldOP w ∧ fieldOP w ∉ legalOps := by
  by_cases hl : fieldOP w ∈ legalOps
  · obtain ⟨i, hi, -⟩ := decode_legal hl
    rw [hi] at h; cases h
  · rw [decode_illegal hl] at h; cases h; exact ⟨rfl, hl⟩

end Sys2Proof
end

