-- ==== Sys2Proof/Laws/Operands.lean ====
section
/-! SUPPORT. What the boundary conversions answer (60_exceptions.md R202, R203). -/

namespace Sys2Proof.Machine

theorem inByteRange_iff (v : Int) : inByteRange v = true ↔ 0 ≤ v ∧ v ≤ 255 := by simp [inByteRange]

/-- A value in range keeps its value as a byte. -/
theorem byteOfInt_toNat {v : Int} (h : 0 ≤ v ∧ v ≤ 255) : ((byteOfInt v).toNat : Int) = v := by
  simp only [byteOfInt, BitVec.toNat_ofInt]
  omega

theorem byteOfInt_natCast (b : Byte) : byteOfInt b.toNat = b := by
  apply BitVec.eq_of_toNat_eq
  simp only [byteOfInt, BitVec.toNat_ofInt]
  have := b.isLt
  omega

theorem toByte_int (operand : Operand) (v : Int) :
    toByte operand (.int v) =
      if 0 ≤ v ∧ v ≤ 255 then .ok (byteOfInt v) else .error (.fault (.invalidByte operand v)) := by
  simp [toByte, inByteRange]

/-- No bad element is found exactly when every element is in range. -/
theorem firstBadFrom_none (k : Nat) (xs : List Int) :
    firstBadFrom k xs = none ↔ ∀ v ∈ xs, 0 ≤ v ∧ v ≤ 255 := by
  induction xs generalizing k with
  | nil => simp [firstBadFrom]
  | cons v vs ih => by_cases h : inByteRange v = true <;> simp [firstBadFrom, h, ih, ← inByteRange_iff]

/-- The bad element found stands at its index, is out of range, and every element before it is in range. -/
theorem firstBadFrom_some {k j : Nat} {xs : List Int} {v : Int} (h : firstBadFrom k xs = some (j, v)) :
    ∃ n, j = k + n ∧ xs[n]? = some v ∧ ¬(0 ≤ v ∧ v ≤ 255) ∧ ∀ m < n, ∀ u, xs[m]? = some u → 0 ≤ u ∧ u ≤ 255 := by
  induction xs generalizing k with
  | nil => cases h
  | cons x xs ih =>
    by_cases hx : inByteRange x = true
    · simp only [firstBadFrom, hx, ↓reduceIte] at h
      obtain ⟨n, rfl, hn, hv, hm⟩ := ih h
      refine ⟨n + 1, by omega, by simpa using hn, hv, fun m hmn u hu => ?_⟩
      cases m with
      | zero => simp only [List.getElem?_cons_zero, Option.some.injEq] at hu; exact hu ▸ (inByteRange_iff x).mp hx
      | succ m => exact hm m (by omega) u (by simpa using hu)
    · rw [firstBadFrom, if_neg hx] at h
      cases h
      exact ⟨0, rfl, rfl, fun hr => hx ((inByteRange_iff v).mpr hr), fun m hm => absurd hm (Nat.not_lt_zero m)⟩

theorem flatOfRows_length (rows : List (List Int)) : (flatOfRows rows).length = 16 := by simp [flatOfRows]

end Sys2Proof.Machine
end

