-- ==== Sys2Proof/Laws/State.lean ====
section
/-! SUPPORT. One lemma per field of State per named operation: what the operation leaves there. -/

namespace Sys2Proof.Machine

@[simp] theorem State.present_pending (s : State) (x : HostInput) : (s.present x).pending = s.pending ++ [x] := rfl
@[simp] theorem State.present_cmd (s : State) (x : HostInput) : (s.present x).cmd = s.cmd := rfl
@[simp] theorem State.present_rsp (s : State) (x : HostInput) : (s.present x).rsp = s.rsp := rfl
@[simp] theorem State.present_outcomes (s : State) (x : HostInput) : (s.present x).outcomes = s.outcomes := rfl
@[simp] theorem State.present_faultMark (s : State) (x : HostInput) : (s.present x).faultMark = s.faultMark := rfl
@[simp] theorem State.present_draws (s : State) (x : HostInput) : (s.present x).draws = s.draws := rfl

@[simp] theorem State.onPort_pending (s : State) (w : CmdWord) : (s.onPort w).pending = s.pending := rfl
@[simp] theorem State.onPort_cmd (s : State) (w : CmdWord) : (s.onPort w).cmd = some w := rfl
@[simp] theorem State.onPort_rsp (s : State) (w : CmdWord) : (s.onPort w).rsp = s.rsp := rfl
@[simp] theorem State.onPort_outcomes (s : State) (w : CmdWord) : (s.onPort w).outcomes = s.outcomes := rfl
@[simp] theorem State.onPort_faultMark (s : State) (w : CmdWord) : (s.onPort w).faultMark = s.faultMark := rfl
@[simp] theorem State.onPort_draws (s : State) (w : CmdWord) : (s.onPort w).draws = s.draws := rfl

@[simp] theorem State.complete_pending (s : State) (r : Rsp) : (s.complete r).pending = s.pending := rfl
@[simp] theorem State.complete_cmd (s : State) (r : Rsp) : (s.complete r).cmd = s.cmd := rfl
@[simp] theorem State.complete_rsp (s : State) (r : Rsp) : (s.complete r).rsp = r := rfl
@[simp] theorem State.complete_outcomes (s : State) (r : Rsp) : (s.complete r).outcomes = s.outcomes ++ [.ok r] := rfl
@[simp] theorem State.complete_faultMark (s : State) (r : Rsp) : (s.complete r).faultMark = s.faultMark := rfl
@[simp] theorem State.complete_draws (s : State) (r : Rsp) : (s.complete r).draws = s.draws + 1 := rfl

@[simp] theorem State.answerByte_pending (s : State) (i : Instr) (b : Byte) :
    (s.answerByte i b).pending =
      s.pending := rfl
@[simp] theorem State.answerByte_cmd (s : State) (i : Instr) (b : Byte) : (s.answerByte i b).cmd = s.cmd := rfl
@[simp] theorem State.answerByte_rsp (s : State) (i : Instr) (b : Byte) :
    (s.answerByte i b).rsp =
      { rb := b, rs := Config.drawRS s.draws (.command i), status := okStatus } := rfl
@[simp] theorem State.answerByte_outcomes (s : State) (i : Instr) (b : Byte) :
    (s.answerByte i b).outcomes =
      s.outcomes ++ [.ok (s.answerByte i b).rsp] := rfl
@[simp] theorem State.answerByte_faultMark (s : State) (i : Instr) (b : Byte) :
    (s.answerByte i b).faultMark =
      s.faultMark := rfl
@[simp] theorem State.answerByte_draws (s : State) (i : Instr) (b : Byte) :
    (s.answerByte i b).draws =
      s.draws + 1 := rfl

@[simp] theorem State.answerBlock_pending (s : State) (i : Instr) (st : Block) :
    (s.answerBlock i st).pending =
      s.pending := rfl
@[simp] theorem State.answerBlock_cmd (s : State) (i : Instr) (st : Block) : (s.answerBlock i st).cmd = s.cmd := rfl
@[simp] theorem State.answerBlock_rsp (s : State) (i : Instr) (st : Block) :
    (s.answerBlock i st).rsp =
      { rb := Config.drawRB s.draws (.command i), rs := st, status := okStatus } := rfl
@[simp] theorem State.answerBlock_outcomes (s : State) (i : Instr) (st : Block) :
    (s.answerBlock i st).outcomes =
      s.outcomes ++ [.ok (s.answerBlock i st).rsp] := rfl
@[simp] theorem State.answerBlock_faultMark (s : State) (i : Instr) (st : Block) :
    (s.answerBlock i st).faultMark =
      s.faultMark := rfl
@[simp] theorem State.answerBlock_draws (s : State) (i : Instr) (st : Block) :
    (s.answerBlock i st).draws =
      s.draws + 1 := rfl

@[simp] theorem State.raise_pending (s : State) (info : FaultInfo) : (s.raise info).pending = s.pending := rfl
@[simp] theorem State.raise_cmd (s : State) (info : FaultInfo) : (s.raise info).cmd = s.cmd := rfl
@[simp] theorem State.raise_rsp (s : State) (info : FaultInfo) :
    (s.raise info).rsp =
      { rb := Config.drawRB s.draws (.fault info), rs := Config.drawRS s.draws (.fault info), status := info.code } := rfl
@[simp] theorem State.raise_outcomes (s : State) (info : FaultInfo) :
    (s.raise info).outcomes =
      s.outcomes ++ [.fault info] := rfl
@[simp] theorem State.raise_faultMark (s : State) (info : FaultInfo) : (s.raise info).faultMark = true := rfl
@[simp] theorem State.raise_draws (s : State) (info : FaultInfo) : (s.raise info).draws = s.draws + 1 := rfl

@[simp] theorem State.resetResponse_pending (s : State) : (s.resetResponse).pending = s.pending := rfl
@[simp] theorem State.resetResponse_cmd (s : State) : (s.resetResponse).cmd = s.cmd := rfl
@[simp] theorem State.resetResponse_rsp (s : State) :
    (s.resetResponse).rsp =
      { rb := Config.drawRB s.draws .reset, rs := Config.drawRS s.draws .reset, status := Config.drawSTATUS s.draws .reset } := rfl
@[simp] theorem State.resetResponse_outcomes (s : State) : (s.resetResponse).outcomes = s.outcomes := rfl
@[simp] theorem State.resetResponse_faultMark (s : State) : (s.resetResponse).faultMark = s.faultMark := rfl
@[simp] theorem State.resetResponse_draws (s : State) : (s.resetResponse).draws = s.draws + 1 := rfl

@[simp] theorem State.reset_pending : State.reset.pending = [] := rfl
@[simp] theorem State.reset_cmd : State.reset.cmd = none := rfl
@[simp] theorem State.reset_outcomes : State.reset.outcomes = [] := rfl
@[simp] theorem State.reset_faultMark : State.reset.faultMark = false := rfl

end Sys2Proof.Machine
end

