-- ==== Sys2Proof/Laws/Ops.lean ====
section
/-! SUPPORT. What the machine's shared operations can do, said once: exec, runCommand, runCall, runInput and step. -/

namespace Sys2Proof.Machine

theorem State.takeInput_nil (s : State) (h : s.pending = []) : s.takeInput = none := by
  simp [State.takeInput, h]

theorem State.takeInput_cons (s : State) (x : HostInput) (rest : List HostInput) (h : s.pending = x :: rest) :
    s.takeInput = some (x, { s with pending := rest }) := by
  simp [State.takeInput, h]

/-- Every instruction completes, with a response of STATUS 0. -/
theorem exec_completes (i : Instr) (s : State) : ∃ r : Rsp, r.status = 0 ∧ exec i s = .next (s.complete r) := by
  cases i <;> exact ⟨_, rfl, rfl⟩

theorem runCommand_ok {w : CmdWord} {i : Instr} (h : decode w = .ok i) (s : State) :
    runCommand w s = exec i (s.onPort w) := by
  simp [runCommand, h]

theorem runCommand_illegal {w : CmdWord} {op : Byte} (h : decode w = .error (.illegalOp op)) (s : State) :
    runCommand w s = .next ((s.onPort w).raise (.illegalOp op)) := by
  simp [runCommand, h]

/-- A command word either completes with STATUS 0 or raises ILLEGAL_OP. -/
theorem runCommand_cases (w : CmdWord) (s : State) :
    (∃ i r, decode w = .ok i ∧ r.status = 0 ∧ runCommand w s = .next ((s.onPort w).complete r)) ∨
      (∃ op, decode w = .error (.illegalOp op) ∧ runCommand w s = .next ((s.onPort w).raise (.illegalOp op))) := by
  cases h : decode w with
  | ok i =>
    obtain ⟨r, hr, he⟩ := exec_completes i (s.onPort w)
    exact .inl ⟨i, r, rfl, hr, by rw [runCommand_ok h, he]⟩
  | error e =>
    cases e with
    | illegalOp op => exact .inr ⟨op, rfl, runCommand_illegal h s⟩

theorem runCommand_next {w : CmdWord} {s t : State} (h : runCommand w s = .next t) :
    (∃ r : Rsp, r.status = 0 ∧ t = (s.onPort w).complete r) ∨
      (∃ op, decode w = .error (.illegalOp op) ∧ t = (s.onPort w).raise (.illegalOp op)) := by
  obtain ⟨i, r, -, hr, he⟩ | ⟨op, hd, he⟩ := runCommand_cases w s
  · rw [he] at h; cases h; exact .inl ⟨r, hr, rfl⟩
  · rw [he] at h; cases h; exact .inr ⟨op, hd, rfl⟩

theorem runCall_ok {c : Call} {i : Instr} (h : c.toInstr = .ok i) (s : State) :
    runCall c s = runCommand (encode i) s := by
  simp [runCall, h]

theorem runCall_fault {c : Call} {info : FaultInfo} (h : c.toInstr = .error (.fault info)) (s : State) :
    runCall c s = .next (s.raise info) := by
  simp [runCall, h]

theorem runCall_notNumeric {c : Call} (h : c.toInstr = .error .notNumeric) (s : State) :
    runCall c s = .refused .notNumeric := by
  simp [runCall, h]

theorem step_nil {s : State} (h : s.pending = []) : step s = .fault .noCommand := by
  simp [step, s.takeInput_nil h]

theorem step_cons {s : State} {x : HostInput} {rest : List HostInput} (h : s.pending = x :: rest) :
    step s = runInput x { s with pending := rest } := by
  simp [step, s.takeInput_cons x rest h]

/-- A run goes on from a step that answers, for any machine behind the host's interface. -/
theorem run_succ_of_next (M : Host.Core) (k : Nat) (s s' : M.State) (h : M.step s = .next s') :
    M.run (k + 1) s = M.run k s' := by
  simp [Host.Core.run, h]

/-- A run of the CORE goes on from a step that answers. -/
theorem core_run_succ (k : Nat) {s s' : State} (h : step s = .next s') :
    Host.Core.run core (k + 1) s = Host.Core.run core k s' :=
  run_succ_of_next core k s s' h

/-- All a step that answers can do to the run: with the input taken (and perhaps a command word put on the port), it
completes a response of STATUS 0, or raises a fault that decode or the boundary gave, or answers reset. -/
theorem step_next_cases {s t : State} (h : step s = .next t) :
    ∃ x rest, s.pending = x :: rest ∧
      ∃ c, (∃ r : Rsp, r.status = 0 ∧ t = State.complete { s with pending := rest, cmd := c } r) ∨
        (∃ info, t = State.raise { s with pending := rest, cmd := c } info ∧
          ((∃ w op, decode w = .error (.illegalOp op) ∧ info = .illegalOp op) ∨
            ∃ call : Call, call.toInstr = .error (.fault info))) ∨
        (x = .reset ∧ t = State.resetResponse { s with pending := rest, cmd := c }) := by
  cases hp : s.pending with
  | nil => rw [step_nil hp] at h; cases h
  | cons x rest =>
    refine ⟨x, rest, rfl, ?_⟩
    rw [step_cons hp] at h
    cases x with
    | command w =>
      obtain ⟨r, hr, rfl⟩ | ⟨op, hd, rfl⟩ := runCommand_next h
      · exact ⟨some w, .inl ⟨r, hr, rfl⟩⟩
      · exact ⟨some w, .inr (.inl ⟨_, rfl, .inl ⟨w, op, hd, rfl⟩⟩)⟩
    | call call =>
      simp only [runInput] at h
      cases hc : call.toInstr with
      | ok i =>
        rw [runCall_ok hc] at h
        obtain ⟨r, hr, rfl⟩ | ⟨op, hd, rfl⟩ := runCommand_next h
        · exact ⟨some (encode i), .inl ⟨r, hr, rfl⟩⟩
        · exact ⟨some (encode i), .inr (.inl ⟨_, rfl, .inl ⟨encode i, op, hd, rfl⟩⟩)⟩
      | error e =>
        cases e with
        | fault info =>
          rw [runCall_fault hc] at h
          cases h
          exact ⟨s.cmd, .inr (.inl ⟨info, rfl, .inr ⟨call, hc⟩⟩)⟩
        | notNumeric => rw [runCall_notNumeric hc] at h; cases h
    | reset => cases h; exact ⟨s.cmd, .inr (.inr ⟨rfl, rfl⟩)⟩

end Sys2Proof.Machine
end

