-- ==== Sys2Proof/Laws/PerInstr.lean ====
section
/-! SUPPORT. Statements made per instruction, about the instruction as syntax. EncodedFields: the word encode builds
holds the instruction's OP byte, which the field rules R63 to R65 and the list R66 both call legal, and 0 in every field
the operation does not read (R74). -/

namespace Sys2Proof.Laws.EncodedFields

def Statement (i : Instr) : Prop :=
  fieldOP (encode i) = i.op ∧ i.wellFormed = true ∧ legalOps.contains i.op = true ∧
    (readsA i.op = false → fieldA (encode i) = 0) ∧ (readsB i.op = false → fieldB (encode i) = 0) ∧
      (readsS i.op = false → fieldS (encode i) = zeroBlock)

/-- Each of the nine OP bytes is legal by the field rules. -/
theorem opLegal_of_listed : ∀ op ∈ legalOps, opLegal op = true := by decide

/-- The fields of a word packed with 0 in every field its operation does not read. -/
theorem of_packCmd (i : Instr) (a b : Byte) (s : Block) (h : encode i = packCmd i.op a b s)
    (hl : legalOps.contains i.op = true) (ha : readsA i.op = false → a = 0)
    (hb : readsB i.op = false → b = 0) (hs : readsS i.op = false → s = zeroBlock) : Statement i := by
  refine ⟨?_, opLegal_of_listed _ (List.contains_iff_mem.mp hl), hl, fun e => ?_, fun e => ?_, fun e => ?_⟩ <;> rw [h]
  · exact fieldOP_packCmd ..
  · rw [fieldA_packCmd, ha e]
  · rw [fieldB_packCmd, hb e]
  · rw [fieldS_packCmd, hs e]

theorem gfDbl (a : Byte) : Statement (.gfDbl a) :=
  of_packCmd _ a 0 zeroBlock rfl rfl (fun e => by cases e) (fun _ => rfl) (fun _ => rfl)

theorem gfMul (a b : Byte) : Statement (.gfMul a b) :=
  of_packCmd _ a b zeroBlock rfl rfl (fun e => by cases e) (fun e => by cases e) (fun _ => rfl)

theorem affFwdG (a : Byte) : Statement (.affFwdG a) :=
  of_packCmd _ a 0 zeroBlock rfl rfl (fun e => by cases e) (fun _ => rfl) (fun _ => rfl)

theorem affFwdS (a : Byte) : Statement (.affFwdS a) :=
  of_packCmd _ a 0 zeroBlock rfl rfl (fun e => by cases e) (fun _ => rfl) (fun _ => rfl)

theorem affInvG (a : Byte) : Statement (.affInvG a) :=
  of_packCmd _ a 0 zeroBlock rfl rfl (fun e => by cases e) (fun _ => rfl) (fun _ => rfl)

theorem affInvS (a : Byte) : Statement (.affInvS a) :=
  of_packCmd _ a 0 zeroBlock rfl rfl (fun e => by cases e) (fun _ => rfl) (fun _ => rfl)

theorem shrG (st : Block) : Statement (.shrG st) :=
  of_packCmd _ 0 0 st rfl rfl (fun _ => rfl) (fun _ => rfl) (fun e => by cases e)

theorem shrS (st : Block) : Statement (.shrS st) :=
  of_packCmd _ 0 0 st rfl rfl (fun _ => rfl) (fun _ => rfl) (fun e => by cases e)

theorem mixc (st : Block) : Statement (.mixc st) :=
  of_packCmd _ 0 0 st rfl rfl (fun _ => rfl) (fun _ => rfl) (fun e => by cases e)

end Sys2Proof.Laws.EncodedFields
end

