-- ==== Sys2Proof/Tests/Slice0.lean ====
section
/-! SUPPORT. The model's own tests. Every expected value is the spec's: 95_test_vectors.md (L1, L2, P), the examples and
corner cases of the instruction rules R104 to R172, or a bit position of R60 to R66. The last part holds, for every
statement with hypotheses, a state and operands that meet them. -/

namespace Sys2Proof.Tests

open Sys2Proof.Machine

/-- The machine after reset with these inputs presented. -/
def presenting (xs : List HostInput) : State := { State.reset with pending := xs }

/-- The state a step answers. -/
def nextOf (o : Host.Outcome State Fault Refusal) : Option State :=
  match o with
  | .next t => some t
  | .fault _ => none
  | .refused _ => none

/-- RB after one command word. -/
def rbAfter (w : CmdWord) : Option Byte := (nextOf (step (presenting [.command w]))).map (·.rsp.rb)

/-- RS after one command word. -/
def rsAfter (w : CmdWord) : Option Block := (nextOf (step (presenting [.command w]))).map (·.rsp.rs)

/-- STATUS and the fault mark after one input. -/
def statusAfter (x : HostInput) : Option (BitVec 2 × Bool) :=
  (nextOf (step (presenting [x]))).map fun t => (t.rsp.status, t.faultMark)

/-- The fault a Call raises at the boundary. -/
def faultOf (c : Call) : Option FaultInfo :=
  match c.toInstr with
  | .ok _ => none
  | .error (.fault info) => some info
  | .error .notNumeric => none

/-- The State of the vectors L1-3 and L1-4, in port order. -/
def l13 : Block := #v[0x32, 0x43, 0xf6, 0xa8, 0x88, 0x5a, 0x30, 0x8d, 0x31, 0x31, 0x98, 0xa2, 0xe0, 0x37, 0x07, 0x34]

/-! ## Well-formedness: a word that each check refuses -/

theorem test_reservedClear_refuses : reservedClear 0x23 = false ∧ opLegal 0x23 = false := by decide
theorem test_functionDefined_refuses : functionDefined 0x07 = false ∧ opLegal 0x00 = false := by decide
theorem test_strategyAllowed_refuses : strategyAllowed 0x16 = false ∧ opLegal 0x11 = false := by decide
theorem test_illFormed_word : CmdWord.wellFormed 0x835712 = false ∧ CmdWord.wellFormed 0x005713 = true := by decide

/-! ## Decode and encode: words written out from R60, R62 and R66 -/

theorem test_decode_gfDbl : decode (0b01010111_00000001 : CmdWord) = .ok (.gfDbl 0x57) := by decide
theorem test_decode_gfMul : decode (0b10000011_01010111_00000010 : CmdWord) = .ok (.gfMul 0x57 0x83) := by decide
theorem test_decode_affFwdG : decode (0b11001010_00000011 : CmdWord) = .ok (.affFwdG 0xCA) := by decide
theorem test_decode_affFwdS : decode (0b11001010_00010011 : CmdWord) = .ok (.affFwdS 0xCA) := by decide
theorem test_decode_affInvG : decode (0b11101101_00000100 : CmdWord) = .ok (.affInvG 0xED) := by decide
theorem test_decode_affInvS : decode (0b11101101_00010100 : CmdWord) = .ok (.affInvS 0xED) := by decide
theorem test_decode_shrG : decode 0x340737e0a29831318d305a88a8f64332000005 = .ok (.shrG l13) := by decide
theorem test_decode_shrS : decode 0x340737e0a29831318d305a88a8f64332000015 = .ok (.shrS l13) := by decide
theorem test_decode_mixc : decode 0x340737e0a29831318d305a88a8f64332000006 = .ok (.mixc l13) := by decide

theorem test_decode_illegal :
    (([0x000000, 0x005707, 0x00570f, 0x005711, 0x835712, 0x000016, 0x005723, 0x0057ff] : List CmdWord).all fun w =>
      match decode w with
      | .ok _ => false
      | .error (.illegalOp op) => op == fieldOP w) = true := by decide

theorem test_encode_gfMul : encode (.gfMul 0x57 0x83) = 0x835702 := by decide
theorem test_encode_mixc : encode (.mixc l13) = 0x340737e0a29831318d305a88a8f64332000006 := by decide

/-- With the bits above the table's eight at 0, each row's pattern decodes to its instruction. -/
theorem test_decodeTableWord :
    decodeTableWord 8 0x13 = some (.affFwdS 0) ∧ decodeTableWord 8 0x06 = some (.mixc zeroBlock) ∧
      decodeTableWord 152 0x835702 = some (.gfMul 0x57 0x83) ∧ decodeTableWord 8 0x12 = none := by decide

theorem test_command_fields :
    fieldOP 0x835702 = 0x02 ∧ fieldA 0x835702 = 0x57 ∧ fieldB 0x835702 = 0x83 ∧
      (fieldS 0xFF000000000000000000000000000001000000)[0] = 0x01 ∧
      (fieldS 0xFF000000000000000000000000000001000000)[15] = 0xFF := by decide

theorem test_response_fields :
    (Rsp.word { rb := 0xAE, rs := zeroBlock.set 0 0x5C, status := 3 }) = (3 <<< 136) ||| 0x5CAE := by decide

theorem test_spellWord : spellWord 0x835702 = "0x835702".toList := by decide
theorem test_spellWord_state :
    spellWord 0x340737e0a29831318d305a88a8f64332000005 = "0x340737e0a29831318d305a88a8f64332000005".toList := by decide
/-- R73 shortens a byte operation only: MIXC of the zero State keeps its 38 digits. -/
theorem test_spellWord_zero_state : spellWord 0x000006 = "0x".toList ++ List.replicate 37 '0' ++ ['6'] := by decide
/-- L2-6 spells an illegal word with S = 0 in 6 digits (log 16). -/
theorem test_spellWord_illegal : spellWord 0x000016 = "0x000016".toList := by decide
theorem test_spellInstr : spellInstr (.gfMul 0x57 0x83) = "gf.mul a=0x57, b=0x83".toList := by decide
theorem test_spellInstr_state : (spellInstr (.mixc l13)).take 16 =
    "mixc s=".toList ++ [Char.ofNat 123] ++ "32 43 f6".toList := by decide

/-! ## Instructions, by the vectors of L2 and the corner cases of each rule -/

theorem test_gfDbl : rbAfter 0x005701 = some 0xAE ∧ rbAfter 0x00ae01 = some 0x47 ∧ rbAfter 0x00ff01 = some 0xE5 := by decide
theorem test_gfDbl_edge : rbAfter 0x007f01 = some 0xFE ∧ rbAfter 0x008001 = some 0x1B ∧ rbAfter 0x008d01 = some 0x01 := by
  decide
theorem test_gfMul : rbAfter 0x835702 = some 0xC1 ∧ rbAfter 0x135702 = some 0xFE ∧ rbAfter 0x1ce502 = some 0x02 := by decide
theorem test_gfMul_edge : rbAfter 0xffff02 = some 0x13 ∧ rbAfter 0x00a502 = some 0x00 ∧ rbAfter 0x800202 = some 0x1B := by
  decide
theorem test_affFwdG : rbAfter 0x00ca03 = some 0xED ∧ rbAfter 0x000103 = some 0x7C ∧ rbAfter 0x008003 = some 0xEC := by
  decide
theorem test_affFwdG_edge : rbAfter 0x000003 = some 0x63 ∧ rbAfter 0x000503 = some 0x00 ∧ rbAfter 0x00ff03 = some 0x9C := by
  decide
theorem test_affFwdS : rbAfter 0x00ca13 = some 0xED ∧ rbAfter 0x001013 = some 0x92 ∧ rbAfter 0x005713 = some 0x08 := by
  decide
theorem test_affFwdS_edge : rbAfter 0x000013 = some 0x63 ∧ rbAfter 0x000513 = some 0x00 ∧ rbAfter 0x00ff13 = some 0x9C := by
  decide
theorem test_affInvG : rbAfter 0x00ed04 = some 0xCA ∧ rbAfter 0x000104 = some 0x4F ∧ rbAfter 0x008004 = some 0x20 := by
  decide
theorem test_affInvG_edge : rbAfter 0x000004 = some 0x05 ∧ rbAfter 0x006304 = some 0x00 ∧ rbAfter 0x00ff04 = some 0xFA := by
  decide
theorem test_affInvS : rbAfter 0x00ed14 = some 0xCA ∧ rbAfter 0x000214 = some 0x91 ∧ rbAfter 0x004014 = some 0x97 := by
  decide
theorem test_affInvS_edge : rbAfter 0x000014 = some 0x05 ∧ rbAfter 0x006314 = some 0x00 ∧ rbAfter 0x00ff14 = some 0xFA := by
  decide
theorem test_shrG : rsAfter 0x340737e0a29831318d305a88a8f64332000005 =
    some #v[0x32, 0x5a, 0x98, 0x34, 0x88, 0x31, 0x07, 0xa8, 0x31, 0x37, 0xf6, 0x8d, 0xe0, 0x43, 0x30, 0xa2] := by decide
theorem test_shrG_table : rsAfter 0x0f0e0d0c0b0a09080706050403020100000005 =
    some #v[0x00, 0x05, 0x0a, 0x0f, 0x04, 0x09, 0x0e, 0x03, 0x08, 0x0d, 0x02, 0x07, 0x0c, 0x01, 0x06, 0x0b] := by decide
theorem test_shrS : rsAfter 0x3052411ee55db4b8f198bfe0ae1127d4000015 =
    some #v[0xd4, 0xbf, 0x5d, 0x30, 0xe0, 0xb4, 0x52, 0xae, 0xb8, 0x41, 0x11, 0xf1, 0x1e, 0x27, 0x98, 0xe5] := by decide
theorem test_shrS_l13 : rsAfter 0x340737e0a29831318d305a88a8f64332000015 =
    some #v[0x32, 0x5a, 0x98, 0x34, 0x88, 0x31, 0x07, 0xa8, 0x31, 0x37, 0xf6, 0x8d, 0xe0, 0x43, 0x30, 0xa2] := by decide
theorem test_mixc : rsAfter 0xe598271ef11141b8ae52b4e0305dbfd4000006 =
    some #v[0x04, 0x66, 0x81, 0xe5, 0xe0, 0xcb, 0x19, 0x9a, 0x48, 0xf8, 0xd3, 0x7a, 0x28, 0x06, 0x26, 0x4c] := by decide
theorem test_mixc_l14 : rsAfter 0x340737e0a29831318d305a88a8f64332000006 =
    some #v[0xff, 0x1d, 0x65, 0xa8, 0x58, 0xe1, 0x3e, 0xe8, 0x0b, 0x42, 0xd6, 0xa5, 0xb1, 0xb3, 0x85, 0x63] := by decide

/-! ## Outcomes, faults and the boundary -/

theorem test_status_ok : statusAfter (.command 0x005701) = some (0, false) := by decide
theorem test_illegal_word : statusAfter (.command 0x000016) = some (3, true) := by decide
theorem test_unread_field : rbAfter 0xFF5701 = some 0xAE := by decide
theorem test_call_gfMul : (Call.gfMul (.int 0x57) (.int 0x83)).toInstr = .ok (.gfMul 0x57 0x83) := by decide
theorem test_call_status :
    statusAfter (.call (.gfDbl (.int 256))) = some (1, true) ∧
      statusAfter (.call (.mixc (.flat []))) = some (2, true) := by decide
theorem test_call_byte_faults :
    faultOf (.gfDbl (.int 256)) = some (.invalidByte .A 256) ∧ faultOf (.affInvS (.int (-1))) = some (.invalidByte .A (-1)) ∧
      faultOf (.gfMul (.int 0x57) (.int 300)) = some (.invalidByte .B 300) ∧
      faultOf (.gfMul (.int (-5)) (.int 300)) = some (.invalidByte .A (-5)) ∧
      faultOf (.gfDbl (.int 255)) = none ∧ faultOf (.gfDbl (.int 0)) = none := by decide
theorem test_call_shape_faults :
    faultOf (.shrG (.nested [[0, 1, 2, 3], [0, 1, 2, 3], [0, 1, 2, 999]])) = some (.dimension (.nested [4, 4, 4])) ∧
      faultOf (.mixc (.nested [[0, 1, 2, 3], [0, 1, 2, 3], [0, 1, 2], [0, 1, 2, 3]])) =
        some (.dimension (.nested [4, 4, 3, 4])) ∧
      faultOf (.shrS (.flat (List.replicate 15 0))) = some (.dimension (.flat 15)) ∧
      faultOf (.shrG (.flat (List.replicate 9 0 ++ [256] ++ List.replicate 6 0))) = some (.invalidByte (.S 9) 256) := by
  decide
/-- The nested list of L1-4 is read as rows: on the port it is the State of L1-3. -/
theorem test_call_nested_rows : (Call.mixc (.nested [[0x32, 0x88, 0x31, 0xe0], [0x43, 0x5a, 0x31, 0x37],
    [0xf6, 0x30, 0x98, 0x07], [0xa8, 0x8d, 0xa2, 0x34]])).toInstr = .ok (.mixc l13) := by decide

/-- P4: after a faulted command the next one is answered, and the mark stays. -/
theorem test_fault_is_sticky :
    (nextOf (step { presenting [.command 0x835702] with faultMark := true })).map (fun t => (t.rsp.rb, t.faultMark)) =
      some (0xC1, true) := by decide

/-- P2: the host chains RS of one command into S of the next. -/
theorem test_chaining :
    ((nextOf (step (presenting [.command 0x3052411ee55db4b8f198bfe0ae1127d4000015]))).map fun t =>
      (t.present (.command (encode (.mixc t.rsp.rs)))).pending) =
      some [.command 0xe598271ef11141b8ae52b4e0305dbfd4000006] := by decide

/-! ## Witnesses: the hypotheses of each statement, met -/

theorem witness_CommandWordLayout :
    (fieldA 0x008000).getLsbD 7 = true ∧ (fieldB 0x800000).getLsbD 7 = true ∧
      (packLanes (fieldS 0x80000000000000000000000000000000000000)).getLsbD 127 = true := by decide
theorem witness_ResponseWordLayout :
    (Rsp.word { rb := 0x80, rs := zeroBlock.set 15 0x80, status := 2 }).getLsbD 7 = true ∧
      (Rsp.word { rb := 0x80, rs := zeroBlock.set 15 0x80, status := 2 }).getLsbD 135 = true ∧
      (Rsp.word { rb := 0x80, rs := zeroBlock.set 15 0x80, status := 2 }).getLsbD 137 = true := by decide
theorem witness_StateByteLanes :
    (fieldS 0x80000000000000000000000000000001000000)[15].getLsbD 7 = true ∧
      (fieldS 0x80000000000000000000000000000001000000)[0].getLsbD 0 = true := by decide
theorem witness_DecodeTotalOverOpBytes :
    fieldOP 0x01 = 0x01 ∧ fieldOP 0x02 = 0x02 ∧ fieldOP 0x03 = 0x03 ∧ fieldOP 0x13 = 0x13 ∧ fieldOP 0x04 = 0x04 ∧
      fieldOP 0x14 = 0x14 ∧ fieldOP 0x05 = 0x05 ∧ fieldOP 0x15 = 0x15 ∧ fieldOP 0x06 = 0x06 ∧ fieldOP 0xFF ∉ legalOps ∧
      (presenting [.command 0xFF]).pending = .command 0xFF :: [] := by decide
theorem witness_FieldRulesAgreeWithDecode :
    (([0x01, 0x06, 0x13, 0x15] : List CmdWord).all fun w => opLegal (fieldOP w)) = true ∧
      (([0x00, 0x07, 0x12, 0x16, 0x21, 0x83] : List CmdWord).all fun w => !opLegal (fieldOP w)) = true := by decide
theorem witness_HexSpellingReadsBack :
    (fieldOP 0x835702 ∉ [0x05, 0x15, 0x06] ∧ fieldS 0x835702 = zeroBlock ∧ (spellWord 0x835702).length = 8) ∧
      (fieldOP 0xFFFFFF ∉ [0x05, 0x15, 0x06] ∧ fieldS 0xFFFFFF = zeroBlock ∧ (spellWord 0xFFFFFF).length = 8) ∧
      (fieldOP 0x000006 ∈ [0x05, 0x15, 0x06] ∧ fieldS 0x000006 = zeroBlock ∧ (spellWord 0x000006).length = 40) ∧
      (fieldOP 0x1000001 ∉ [0x05, 0x15, 0x06] ∧ fieldS 0x1000001 ≠ zeroBlock ∧ (spellWord 0x1000001).length = 40) := by
  decide
theorem witness_StepFaultsOnlyAtTheEnd : step (presenting []) = .fault .noCommand := rfl
theorem witness_RunRecordsOneOutcomePerCommand :
    (presenting [.command 0x005701, .command 0xFF]).pending = ([0x005701, 0xFF] : List CmdWord).map .command := by decide
theorem witness_StepRunsTheDecodedInstruction :
    (presenting [.command 0x835702]).pending = .command 0x835702 :: [] ∧ decode 0x835702 = .ok (.gfMul 0x57 0x83) := by
  decide
theorem witness_PlacedWordRunsNext : decodeTableWord 8 0x15 = some (.shrS zeroBlock) := by decide
theorem witness_IllegalOpIsRecorded :
    (presenting [.command 0x000016]).pending = .command 0x000016 :: [] ∧ fieldOP 0x000016 ∉ legalOps := by decide
theorem witness_LegalCommandCompletes :
    (presenting [.command 0x000006]).pending = .command 0x000006 :: [] ∧ fieldOP 0x000006 ∈ legalOps ∧
      (presenting [.command 0x07]).pending = .command 0x07 :: [] ∧ fieldOP 0x07 ∉ legalOps ∧
      (Call.gfDbl (.int 256)).toInstr = .error (.fault (.invalidByte .A 256)) ∧
      (Call.mixc (.flat [])).toInstr = .error (.fault (.dimension (.flat 0))) := by decide
theorem witness_ResponseDependsOnCommandAlone :
    (presenting [.command 0x005701]).pending = .command 0x005701 :: [] ∧
      ({ presenting [.command 0x005701, .reset] with faultMark := true }).pending = .command 0x005701 :: [.reset] := by
  decide
theorem witness_UnreadFieldsAreDontCare : agreeOnRead 0x005701 0xFF5701 ∧ agreeOnRead 0x000006 0x341206 := by
  unfold agreeOnRead; decide
theorem witness_InstructionFrame : ∃ t, exec (.gfDbl 0x57) (presenting []) = .next t := ⟨_, rfl⟩
theorem witness_ResetInputFrame : (presenting [.reset]).pending = .reset :: [] := rfl
theorem witness_FaultMarkIsSticky :
    ∃ t, step { presenting [.command 0x01] with faultMark := true } = .next t := ⟨_, rfl⟩
theorem witness_EveryStepKeepsTheRunInvariant :
    (presenting [.command 0xFF]).Inv ∧ ∃ t, step (presenting [.command 0xFF]) = .next t :=
  ⟨⟨rfl, fun _ h => by cases h⟩, ⟨_, rfl⟩⟩
theorem witness_RetryFaultsAgain :
    ∃ t, step (presenting [.command 0x16]) = .next t ∧ t.outcomes = [] ++ [.fault (.illegalOp 0x16)] := ⟨_, rfl, rfl⟩
theorem witness_GfDblDoublesInTheField : (0x7F#8).toNat < 0x80 ∧ 0x80 ≤ (0x80#8).toNat := by decide
theorem witness_XtimeLaws : (0x00#8).toNat < 0x80 ∧ 0x80 ≤ (0xFF#8).toNat := by decide
theorem witness_FieldLaws : (0x53 : Byte) ≠ 0 ∧ gmul 0x53 0xCA = 1 := by decide
theorem witness_InverseMatrixUndoesForward : ∀ i j : Fin 8,
    rowProduct AFFINE_INV_MATRIX[i] (columnBits AFFINE_FWD_MATRIX j.val) = decide (i = j) := by decide
theorem witness_AffineRoundTrip : affineFwdFast 0xCA = 0xED ∧ affineInvFast 0xED = 0xCA := by decide
theorem witness_ColumnsAreIndependent :
    columnOf (zeroBlock.set 4 0x80) 0 = columnOf zeroBlock 0 ∧ zeroBlock.set 4 0x80 ≠ zeroBlock ∧
      columnOf (zeroBlock.set 11 0x80) 3 = columnOf zeroBlock 3 := by decide
theorem witness_ToByteNeverTruncates :
    (0 ≤ (0 : Int) ∧ (0 : Int) ≤ 255) ∧ (0 ≤ (255 : Int) ∧ (255 : Int) ≤ 255) ∧ ¬(0 ≤ (-1 : Int) ∧ (-1 : Int) ≤ 255) ∧
      ¬(0 ≤ (256 : Int) ∧ (256 : Int) ≤ 255) := by decide
theorem witness_ToStateShapesAndRanges_good :
    ([[0, 0, 0, 0], [0, 0, 0, 0], [0, 0, 0, 0], [0, 0, 0, 255]] : List (List Int)).length = 4 ∧
      (∀ row ∈ ([[0, 0, 0, 0], [0, 0, 0, 0], [0, 0, 0, 0], [0, 0, 0, 255]] : List (List Int)),
        row.length = 4 ∧ ∀ v ∈ row, 0 ≤ v ∧ v ≤ 255) ∧
      (List.replicate 16 (255 : Int)).length = 16 ∧ ∀ v ∈ List.replicate 16 (255 : Int), 0 ≤ v ∧ v ≤ 255 := by decide
theorem witness_ToStateShapesAndRanges_bad :
    ([[0, 0, 0, 0], [0, 0, 0, 0], [0, 0, 0, 0], [0, 0, 0, 256]] : List (List Int))[15 % 4]?.bind (·[15 / 4]?) = some 256 ∧
      ¬(0 ≤ (256 : Int) ∧ (256 : Int) ≤ 255) ∧
      toBlock (.nested [[0, 0, 0, 0], [0, 0, 0, 0], [0, 0, 0, 0], [0, 0, 0, 256]]) =
        .error (.fault (.invalidByte (.S 15) 256)) ∧
      toBlock (.flat (-1 :: List.replicate 15 300)) = .error (.fault (.invalidByte (.S 0) (-1))) ∧
      ¬(([] : List (List Int)).length = 4 ∧ ∀ row ∈ ([] : List (List Int)), row.length = 4) ∧
      (List.replicate 17 (0 : Int)).length ≠ 16 := by decide
/-- The last clause of ToStateShapesAndRanges, where the conversion succeeds. -/
theorem witness_ToStateShapesAndRanges_applies :
    toBlock (.flat (List.replicate 16 0)) = .ok zeroBlock ∧ toBlock .other = .error .notNumeric := by decide
theorem witness_CallBuildsTheCommandWord :
    (presenting [.call (.gfDbl (.int 255))]).pending = .call (.gfDbl (.int 255)) :: [] ∧
      (Call.gfDbl (.int 255)).toInstr = .ok (.gfDbl 0xFF) ∧ readsA (Instr.mixc zeroBlock).op = false ∧
      readsB (Instr.gfDbl 0).op = false ∧ readsS (Instr.gfDbl 0).op = false := by decide
theorem witness_BoundaryErrorIsRecorded :
    (presenting [.call (.affFwdG (.int 256))]).pending = .call (.affFwdG (.int 256)) :: [] ∧
      (Call.affFwdG (.int 256)).toInstr = .error (.fault (.invalidByte .A 256)) := by decide
theorem witness_NonNumbersAreRefused :
    (presenting [.call (.gfDbl (.flat [0]))]).pending = .call (.gfDbl (.flat [0])) :: [] ∧
      (presenting [.call (.affInvS (.nested []))]).pending = .call (.affInvS (.nested [])) :: [] ∧
      (presenting [.call (.gfMul .other (.int 256))]).pending = .call (.gfMul .other (.int 256)) :: [] ∧
      (0 ≤ (255 : Int) ∧ (255 : Int) ≤ 255) ∧
      (presenting [.call (.gfMul (.int 255) .other)]).pending = .call (.gfMul (.int 255) .other) :: [] ∧
      (presenting [.call (.shrG (.int (-1)))]).pending = .call (.shrG (.int (-1))) :: [] ∧
      (presenting [.call (.mixc .other)]).pending = .call (.mixc .other) :: [] := by decide
theorem witness_InstancesShareNothing : ∃ next,
    Instances.stepOne (n := 2) #v[presenting [.command 0x01], presenting [.command 0xFF]] 1 = .next next := ⟨_, rfl⟩
theorem witness_InstanceStepsCommute : (0 : Fin 2) ≠ 1 ∧
    (∃ a, Instances.stepOne (n := 2) #v[presenting [.command 0x01], presenting [.command 0xFF]] 0 = .next a) ∧
      ∃ b, Instances.stepOne (n := 2) #v[presenting [.command 0x01], presenting [.command 0xFF]] 1 = .next b :=
  ⟨by decide, ⟨_, rfl⟩, ⟨_, rfl⟩⟩

end Sys2Proof.Tests
end

/-! ## The scope (00_scope.md): commands, Calls and the byte-wide affine forms -/

namespace Sys2Proof.Laws.EncodedFields

/-- The fields of the encoded word, for every instruction: one case per operation. -/
theorem statement (i : Instr) : Statement i := by
  cases i with
  | gfDbl a => exact gfDbl a
  | gfMul a b => exact gfMul a b
  | affFwdG a => exact affFwdG a
  | affFwdS a => exact affFwdS a
  | affInvG a => exact affInvG a
  | affInvS a => exact affInvS a
  | shrG st => exact shrG st
  | shrS st => exact shrS st
  | mixc st => exact mixc st

end Sys2Proof.Laws.EncodedFields

namespace Sys2Proof.Machine

/-! ### A Call is the command word encode builds -/

/-- A Call that converts steps as its encoded command word, presented in its place (R11, R74). -/
theorem step_call_eq_step_command {s : State} {c : Call} {i : Instr} {rest : List HostInput}
    (hp : s.pending = .call c :: rest) (hc : c.toInstr = .ok i) :
    step s = step { s with pending := .command (encode i) :: rest } := by
  rw [step_cons hp, step_cons rfl]
  exact runCall_ok hc _

/-- The integer value of a byte converts to that byte (R202). -/
@[simp] theorem toByte_natCast (operand : Operand) (b : Byte) : toByte operand (.int b.toNat) = .ok b := by
  have hrange : (0 : Int) ≤ b.toNat ∧ (b.toNat : Int) ≤ 255 := by
    have := b.isLt
    omega
  rw [toByte_int, if_pos hrange, byteOfInt_natCast]

/-- A one-byte Call on a byte's value builds the instruction on that byte (R74). -/
@[simp] theorem callByte_natCast (op : Byte → Instr) (b : Byte) : callByte op (.int b.toNat) = .ok (op b) := by
  simp [callByte]

/-- GF.MUL's Call on two bytes' values builds the instruction on those bytes (R74). -/
theorem toInstr_gfMul_natCast (a b : Byte) : (Call.gfMul (.int a.toNat) (.int b.toNat)).toInstr = .ok (.gfMul a b) := by
  simp [Call.toInstr]

/-- Settles O47: the Call's step through the boundary, the fields of the encoded word, and the conversions. -/
theorem callBuildsTheCommandWord : Obligations.CallBuildsTheCommandWord := by
  refine ⟨fun s c i rest => step_call_eq_step_command, fun i => ?_, fun a b => ?_⟩
  · obtain ⟨hop, -, -, ha, hb, hs⟩ := Laws.EncodedFields.statement i
    exact ⟨hop, ha, hb, hs⟩
  · exact ⟨callByte_natCast _ a, toInstr_gfMul_natCast a b, callByte_natCast _ a, callByte_natCast _ a,
      callByte_natCast _ a, callByte_natCast _ a⟩

/-! ### A word that decodes -/

/-- Settles O9: the step takes the word, puts it on the command port and runs what it decodes to. -/
theorem stepRunsTheDecodedInstruction : Obligations.StepRunsTheDecodedInstruction := by
  intro s w rest i hp hd
  rw [step_cons hp]
  exact runCommand_ok hd _

/-! ### The byte-wide forms of the specialized affine strategies -/

/-- Bit i of a byte rotated left by r is bit i − r (mod 8). -/
theorem rotateLeft_byte_getLsbD (b : Byte) {r i : Nat} (hr : r < 8) (hi : i < 8) :
    (b.rotateLeft r).getLsbD i = b.getLsbD ((i + (8 - r)) % 8) := by
  rw [BitVec.getLsbD_rotateLeft, Nat.mod_eq_of_lt hr, decide_eq_true hi, Bool.true_and]
  by_cases h : i < r
  · have hwrap : (i + (8 - r)) % 8 = 8 - r + i := by omega
    simp only [h, hwrap, decide_true, cond_true]
  · have hshift : (i + (8 - r)) % 8 = i - r := by omega
    simp only [h, hshift, decide_false, cond_false]

/-- Bit i of the specialized forward form is the cyclic formula of R120. -/
theorem affineFwdFast_getLsbD (b : Byte) {i : Nat} (hi : i < 8) :
    (affineFwdFast b).getLsbD i =
      (b.getLsbD i ^^ b.getLsbD ((i + 4) % 8) ^^ b.getLsbD ((i + 5) % 8) ^^ b.getLsbD ((i + 6) % 8) ^^
        b.getLsbD ((i + 7) % 8) ^^ (0x63#8).getLsbD i) := by
  rw [affineFwdFast, repack_getLsbD _ i hi]
  simp only [bitVector8_getElem]
  interval_cases i <;> simp [-BitVec.getLsbD_eq_getElem, Bool.xor_comm, Bool.xor_left_comm]

/-- Bit i of the specialized inverse form is the cyclic formula of R121. -/
theorem affineInvFast_getLsbD (b : Byte) {i : Nat} (hi : i < 8) :
    (affineInvFast b).getLsbD i =
      (b.getLsbD ((i + 2) % 8) ^^ b.getLsbD ((i + 5) % 8) ^^ b.getLsbD ((i + 7) % 8) ^^ (0x05#8).getLsbD i) := by
  rw [affineInvFast, repack_getLsbD _ i hi]
  simp only [bitVector8_getElem]
  interval_cases i <;> simp [-BitVec.getLsbD_eq_getElem, Bool.xor_comm, Bool.xor_left_comm]

/-- R123, forward: the byte XOR its rotations by 1 to 4, XOR the constant. -/
theorem affineFwdFast_eq_rotations (b : Byte) :
    affineFwdFast b =
      b ^^^ b.rotateLeft 1 ^^^ b.rotateLeft 2 ^^^ b.rotateLeft 3 ^^^ b.rotateLeft 4 ^^^ 0x63 := by
  apply BitVec.eq_of_getLsbD_eq
  intro i hi
  simp (disch := decide) only [BitVec.getLsbD_xor, affineFwdFast_getLsbD b hi, rotateLeft_byte_getLsbD b _ hi,
    Nat.reduceSub, BitVec.ofNat_eq_ofNat]
  simp only [Bool.xor_comm, Bool.xor_left_comm, Bool.xor_assoc]

/-- R123, inverse: the XOR of the rotations by 1, 3 and 6, XOR the constant. -/
theorem affineInvFast_eq_rotations (b : Byte) :
    affineInvFast b = b.rotateLeft 1 ^^^ b.rotateLeft 3 ^^^ b.rotateLeft 6 ^^^ 0x05 := by
  apply BitVec.eq_of_getLsbD_eq
  intro i hi
  simp (disch := decide) only [BitVec.getLsbD_xor, affineInvFast_getLsbD b hi, rotateLeft_byte_getLsbD b _ hi,
    Nat.reduceSub, BitVec.ofNat_eq_ofNat]
  simp only [Bool.xor_comm, Bool.xor_assoc]

/-- Settles O34: bit by bit, a rotation by r reads bit i − r, which is the cyclic formula of the fast forms. -/
theorem specializedByteWideForms : Obligations.SpecializedByteWideForms := fun b =>
  ⟨affineFwdFast_eq_rotations b, affineInvFast_eq_rotations b⟩

end Sys2Proof.Machine

/-! ## The state and the run (10_state.md): what every step keeps, and what the response depends on -/

namespace Sys2Proof.Machine

/-! ### Every fault the boundary raises is justified (R201 to R203) -/

@[simp] theorem justified_invalidByte_A (v : Int) :
    (FaultInfo.invalidByte .A v).justified = true ↔ ¬(0 ≤ v ∧ v ≤ 255) := by
  simp only [FaultInfo.justified, Bool.or_eq_true, decide_eq_true_eq]
  omega

@[simp] theorem justified_invalidByte_B (v : Int) :
    (FaultInfo.invalidByte .B v).justified = true ↔ ¬(0 ≤ v ∧ v ≤ 255) := by
  simp only [FaultInfo.justified, Bool.or_eq_true, decide_eq_true_eq]
  omega

@[simp] theorem justified_invalidByte_S (k : Nat) (v : Int) :
    (FaultInfo.invalidByte (.S k) v).justified = true ↔ k < 16 ∧ ¬(0 ≤ v ∧ v ≤ 255) := by
  simp only [FaultInfo.justified, Bool.and_eq_true, Bool.or_eq_true, decide_eq_true_eq]
  omega

@[simp] theorem justified_illegalOp (op : Byte) : (FaultInfo.illegalOp op).justified = true ↔ op ∉ legalOps := by
  simp [FaultInfo.justified]

@[simp] theorem justified_dimension_flat (n : Nat) : (FaultInfo.dimension (.flat n)).justified = true ↔ n ≠ 16 := by
  simp [FaultInfo.justified]

@[simp] theorem justified_dimension_nested (lengths : List Nat) :
    (FaultInfo.dimension (.nested lengths)).justified = true ↔ lengths ≠ [4, 4, 4, 4] := by
  simp [FaultInfo.justified]

/-- ToByte faults only with its own operand and an integer out of range (R202), so its fault is justified when the operand
is one such a fault may name. -/
theorem toByte_fault {operand : Operand} {x : CallerValue} {info : FaultInfo}
    (hjust : ∀ v, ¬(0 ≤ v ∧ v ≤ 255) → (FaultInfo.invalidByte operand v).justified = true)
    (h : toByte operand x = .error (.fault info)) : info.justified = true := by
  cases x with
  | int v =>
    rw [toByte_int] at h
    split at h
    · cases h
    · next hv => cases h; exact hjust v hv
  | nested | flat | other => cases h

/-- On 16 integers, the conversion faults only with an element below index 16 that is out of range (R203). -/
theorem blockOfFlat_fault {xs : List Int} {info : FaultInfo} (hlen : xs.length = 16)
    (h : blockOfFlat xs = .error (.fault info)) : info.justified = true := by
  rw [blockOfFlat] at h
  split at h
  · next k v hbad =>
    cases h
    obtain ⟨n, hk, hget, hv, -⟩ := firstBadFrom_some hbad
    obtain ⟨hn, -⟩ := List.getElem?_eq_some_iff.mp hget
    exact (justified_invalidByte_S k v).mpr ⟨by omega, hv⟩
  · cases h

/-- A nested list with the row lengths 4, 4, 4, 4 has the shape ToState accepts. -/
theorem isFourByFour_of_rowLengths {rows : List (List Int)} (h : rows.map (·.length) = [4, 4, 4, 4]) :
    isFourByFour rows = true := by
  have hcount : rows.length = 4 := by simpa using congrArg List.length h
  have hrows : ∀ row ∈ rows, row.length = 4 := fun row hrow => by
    simpa [h] using List.mem_map_of_mem (f := List.length) hrow
  simpa [isFourByFour, hcount] using hrows

/-- ToState faults only with a wrong shape or an element out of range (R203). -/
theorem toBlock_fault {x : CallerValue} {info : FaultInfo} (h : toBlock x = .error (.fault info)) :
    info.justified = true := by
  cases x with
  | nested rows =>
    simp only [toBlock] at h
    split at h
    · exact blockOfFlat_fault (flatOfRows_length rows) h
    · next hshape => cases h; exact (justified_dimension_nested _).mpr (mt isFourByFour_of_rowLengths hshape)
  | flat xs =>
    simp only [toBlock] at h
    split at h
    · next hlen => exact blockOfFlat_fault hlen h
    · next hlen => cases h; exact (justified_dimension_flat _).mpr hlen
  | int | other => cases h

/-- A Call of one byte faults only as its operand A does. -/
theorem callByte_fault {op : Byte → Instr} {x : CallerValue} {info : FaultInfo}
    (h : callByte op x = .error (.fault info)) : info.justified = true := by
  rw [callByte] at h
  split at h
  · cases h
  · next e hbyte => cases h; exact toByte_fault (fun v => (justified_invalidByte_A v).mpr) hbyte

/-- A Call of one State faults only as its operand S does. -/
theorem callState_fault {op : Block → Instr} {x : CallerValue} {info : FaultInfo}
    (h : callState op x = .error (.fault info)) : info.justified = true := by
  rw [callState] at h
  split at h
  · cases h
  · next e hblock => cases h; exact toBlock_fault hblock

/-- Every boundary error is one that R202 and R203 let the boundary raise. -/
theorem toInstr_fault_justified {c : Call} {info : FaultInfo} (h : c.toInstr = .error (.fault info)) :
    info.justified = true := by
  cases c with
  | gfDbl | affFwdG | affFwdS | affInvG | affInvS => exact callByte_fault h
  | shrG | shrS | mixc => exact callState_fault h
  | gfMul x y =>
    simp only [Call.toInstr] at h
    split at h
    · next e hx => cases h; exact toByte_fault (fun v => (justified_invalidByte_A v).mpr) hx
    · split at h
      · next e hy => cases h; exact toByte_fault (fun v => (justified_invalidByte_B v).mpr) hy
      · cases h

/-! ### What a step records -/

/-- A step that answers records at most one outcome, a lawful one, and sets the mark exactly for a fault. -/
theorem step_next_record {s t : State} (h : step s = .next t) :
    ∃ os, t.outcomes = s.outcomes ++ os ∧ os.length ≤ 1 ∧ t.faultMark = (s.faultMark || os.any CmdOutcome.isFault) ∧
      ∀ o ∈ os, o.lawful = true := by
  obtain ⟨x, rest, -, c, ⟨r, hr, rfl⟩ | ⟨info, rfl, hinfo⟩ | ⟨-, rfl⟩⟩ := step_next_cases h
  · exact ⟨[.ok r], rfl, le_rfl, by simp [CmdOutcome.isFault], by simp [CmdOutcome.lawful, hr]⟩
  · have hjust : info.justified = true := by
      obtain ⟨w, op, hd, rfl⟩ | ⟨call, hc⟩ := hinfo
      · obtain ⟨rfl, hop⟩ := decode_error hd
        exact (justified_illegalOp _).mpr hop
      · exact toInstr_fault_justified hc
    exact ⟨[.fault info], rfl, le_rfl, by simp [CmdOutcome.isFault], by simp [CmdOutcome.lawful, hjust]⟩
  · exact ⟨[], by simp, Nat.zero_le 1, by simp, by simp⟩

/-- Settles O19: the added outcome is lawful and the mark follows it, so the invariant goes from the old record to the
new one. -/
theorem everyStepKeepsTheRunInvariant : Obligations.EveryStepKeepsTheRunInvariant := by
  rintro s t ⟨hmark, hlawful⟩ h
  obtain ⟨os, hos, -, hmark', hlawful'⟩ := step_next_record h
  refine ⟨by rw [hmark', hos, List.any_append, hmark], fun o ho => ?_⟩
  rw [hos, List.mem_append] at ho
  exact ho.elim (hlawful o) (hlawful' o)

/-- Settles O20: at reset the record is empty, which is the model's choice (log 5), and the mark clear (R32). -/
theorem resetMeetsTheRunInvariant : Obligations.ResetMeetsTheRunInvariant :=
  ⟨⟨rfl, by simp⟩, State.reset_faultMark, State.reset_outcomes⟩

/-- Settles O18: what the step adds to the record decides the mark, which is never cleared. -/
theorem faultMarkIsSticky : Obligations.FaultMarkIsSticky := by
  intro s t h
  obtain ⟨os, hos, hlen, hmark, -⟩ := step_next_record h
  exact ⟨os, hos, hlen, hmark, fun hset => by simp [hmark, hset]⟩

/-! ### The end of a run -/

/-- No input of the host stops the machine with a fault: a command's own fault is recorded in the state (log 4). -/
theorem runInput_ne_fault (x : HostInput) (s : State) (r : Fault) : runInput x s ≠ .fault r := by
  have hcommand : ∀ w, runCommand w s ≠ .fault r := fun w h => by
    obtain ⟨_, _, -, -, he⟩ | ⟨_, -, he⟩ := runCommand_cases w s <;> rw [he] at h <;> cases h
  cases x with
  | command w => exact hcommand w
  | call c =>
    rw [runInput]
    cases hc : c.toInstr with
    | ok i => rw [runCall_ok hc]; exact hcommand _
    | error e =>
      cases e with
      | fault info => rw [runCall_fault hc]; nofun
      | notNumeric => rw [runCall_notNumeric hc]; nofun
  | reset => nofun

/-- Settles O17: with nothing pending the step is the end of the run (log 6); with an input pending it is that input's. -/
theorem stepFaultsOnlyAtTheEnd : Obligations.StepFaultsOnlyAtTheEnd := by
  intro s r
  cases hp : s.pending with
  | nil => simp [step_nil hp]
  | cons x rest => simp [step_cons hp, runInput_ne_fault]

/-! ### A command word at the port -/

/-- The step on a legal command word runs an instruction of that word's OP byte. -/
theorem step_command_legal {s : State} {w : CmdWord} {rest : List HostInput} (hp : s.pending = .command w :: rest)
    (hop : fieldOP w ∈ legalOps) :
    ∃ i : Instr, decode w = .ok i ∧ i.op = fieldOP w ∧ step s = exec i { s with pending := rest, cmd := some w } := by
  obtain ⟨i, hd, hi⟩ := decode_legal hop
  exact ⟨i, hd, hi, stepRunsTheDecodedInstruction s w rest i hp hd⟩

/-- The step on an illegal command word raises ILLEGAL_OP, and answers a next state (R204; log 4). -/
theorem step_command_illegal {s : State} {w : CmdWord} {rest : List HostInput} (hp : s.pending = .command w :: rest)
    (hop : fieldOP w ∉ legalOps) :
    step s = .next (State.raise { s with pending := rest, cmd := some w } (.illegalOp (fieldOP w))) := by
  rw [step_cons hp]
  exact runCommand_illegal (decode_illegal hop) _

/-- Settles O15: every instruction ends in `State.complete`, which changes the response, the record and the draw counter
(log 2). -/
theorem instructionFrame : Obligations.InstructionFrame := by
  intro i s t h
  obtain ⟨r, hr, he⟩ := exec_completes i s
  rw [he] at h
  cases h
  exact ⟨rfl, rfl, rfl, rfl, rfl, hr⟩

/-- What decode reads from a word in the opcode table's numbering, it reads from that command word. -/
theorem decodeTableWord_eq_some {nbits w : Nat} {i : Instr} (h : decodeTableWord nbits w = some i) :
    decode (tableWord nbits w) = .ok i := by
  rw [decodeTableWord] at h
  split at h
  · next j hd => cases h; exact hd
  · cases h

/-- Settles O10: the placed word stands first among the inputs (log 7), in the opcode table's numbering (log 15), so the
step runs what it decodes to. -/
theorem placedWordRunsNext : Obligations.PlacedWordRunsNext := fun s nbits w i h =>
  stepRunsTheDecodedInstruction (s.withFetchWord nbits w) (tableWord nbits w) s.pending i rfl (decodeTableWord_eq_some h)

/-! ### The response to a command depends on nothing but the command (R20) -/

/-- Two answers of an operation that writes no RS agree when their RB and STATUS do: RS is a draw (R70). -/
theorem agreeOnWritten_byte {op : Byte} (hop : writesRS op = false) (b : Byte) (st st' : Block) (status : BitVec 2) :
    agreeOnWritten op ⟨b, st, status⟩ ⟨b, st', status⟩ :=
  ⟨rfl, fun _ => rfl, by simp [hop]⟩

/-- Two answers of an operation that writes no RB agree when their RS and STATUS do: RB is a draw (R70). -/
theorem agreeOnWritten_block {op : Byte} (hop : writesRB op = false) (b b' : Byte) (st : Block) (status : BitVec 2) :
    agreeOnWritten op ⟨b, st, status⟩ ⟨b', st, status⟩ :=
  ⟨rfl, by simp [hop], fun _ => rfl⟩

/-- One instruction from two states: both complete, and the responses agree on what the instruction writes. -/
theorem exec_agree (i : Instr) (s s' : State) :
    ∃ r r', exec i s = .next (s.complete r) ∧ exec i s' = .next (s'.complete r') ∧ agreeOnWritten i.op r r' := by
  cases i with
  | gfDbl | gfMul | affFwdG | affFwdS | affInvG | affInvS => exact ⟨_, _, rfl, rfl, agreeOnWritten_byte rfl ..⟩
  | shrG | shrS | mixc => exact ⟨_, _, rfl, rfl, agreeOnWritten_block rfl ..⟩

/-- Only one of the nine operations writes RB (R66). -/
theorem mem_legalOps_of_writesRB {op : Byte} (h : writesRB op = true) : op ∈ legalOps := by
  have hsub : ([0x01, 0x02, 0x03, 0x13, 0x04, 0x14] : List Byte) ⊆ legalOps := by decide
  exact hsub (List.contains_iff_mem.mp h)

/-- Only one of the nine operations writes RS (R66). -/
theorem mem_legalOps_of_writesRS {op : Byte} (h : writesRS op = true) : op ∈ legalOps := by
  have hsub : ([0x05, 0x15, 0x06] : List Byte) ⊆ legalOps := by decide
  exact hsub (List.contains_iff_mem.mp h)

/-- An illegal OP byte writes no field, so of two responses to it only STATUS is compared. -/
theorem agreeOnWritten_illegal {op : Byte} (hop : op ∉ legalOps) {r r' : Rsp} (h : r.status = r'.status) :
    agreeOnWritten op r r' :=
  ⟨h, fun hw => absurd (mem_legalOps_of_writesRB hw) hop, fun hw => absurd (mem_legalOps_of_writesRS hw) hop⟩

/-- Settles O13: a legal word runs the same instruction from both states, an illegal one raises the same fault and
answers a next state from both (log 4). -/
theorem responseDependsOnCommandAlone : Obligations.ResponseDependsOnCommandAlone := by
  intro s s' w rest rest' hp hp'
  by_cases hop : fieldOP w ∈ legalOps
  · obtain ⟨i, hd, hi, hs⟩ := step_command_legal hp hop
    have hs' := stepRunsTheDecodedInstruction s' w rest' i hp' hd
    obtain ⟨r, r', he, he', hagree⟩ :=
      exec_agree i { s with pending := rest, cmd := some w } { s' with pending := rest', cmd := some w }
    exact ⟨_, _, .ok r, .ok r', hs.trans he, hs'.trans he', rfl, rfl, hi ▸ hagree, .inl ⟨rfl, rfl⟩⟩
  · exact ⟨_, _, _, _, step_command_illegal hp hop, step_command_illegal hp' hop, rfl, rfl,
      agreeOnWritten_illegal hop rfl, .inr ⟨_, rfl, rfl⟩⟩

/-! ### A run of command words -/

/-- The step on a command word answers, takes it, and records one outcome; no fault stands recorded after it exactly
when none did before and the OP byte is legal. -/
theorem step_command {s : State} {w : CmdWord} {rest : List HostInput} (hp : s.pending = .command w :: rest) :
    ∃ t o, step s = .next t ∧ t.pending = rest ∧ t.outcomes = s.outcomes ++ [o] ∧
      (t.noFaultRecorded = true ↔ s.noFaultRecorded = true ∧ fieldOP w ∈ legalOps) := by
  by_cases hop : fieldOP w ∈ legalOps
  · obtain ⟨i, -, -, hs⟩ := step_command_legal hp hop
    obtain ⟨r, -, he⟩ := exec_completes i { s with pending := rest, cmd := some w }
    exact ⟨_, .ok r, hs.trans he, rfl, rfl, by simp [State.noFaultRecorded, hop]⟩
  · exact ⟨_, _, step_command_illegal hp hop, rfl, rfl, by simp [State.noFaultRecorded, hop]⟩

/-- Settles O21, by induction on the command words: each step takes one and records its outcome, and the run goes on
after a fault (log 4). -/
theorem runRecordsOneOutcomePerCommand : Obligations.RunRecordsOneOutcomePerCommand := by
  intro ws
  induction ws with
  | nil => exact fun s hp => ⟨s, rfl, hp, ⟨[], (List.append_nil _).symm, rfl⟩, by simp⟩
  | cons w ws ih =>
    intro s hp
    obtain ⟨u, o, hstep, hpu, hou, hmu⟩ := step_command hp
    obtain ⟨t, hrun, hpt, ⟨os, hot, hlen⟩, hmt⟩ := ih u hpu
    refine ⟨t, (core_run_succ _ hstep).trans hrun, hpt, ⟨o :: os, ?_, by simp [hlen]⟩, ?_⟩
    · simpa [State.observation, hou] using hot
    · rw [hmt, hmu, List.forall_mem_cons, and_assoc]

/-! ### Several instances -/

/-- A step of the k-th CORE that answers is that CORE's own, put back in its place (R31). -/
theorem stepOne_next {n : Nat} {cores next : Instances n} {k : Fin n} (h : cores.stepOne k = .next next) :
    ∃ t, step cores[k] = .next t ∧ next = cores.set k t := by
  rw [Instances.stepOne] at h
  split at h
  · next t ht => cases h; exact ⟨t, ht, rfl⟩
  · cases h
  · cases h

/-- Settles O50: place k holds the new state, every other place what it held. -/
theorem instancesShareNothing : Obligations.InstancesShareNothing := by
  intro n cores next k h
  obtain ⟨t, ht, rfl⟩ := stepOne_next h
  refine ⟨by simpa using ht, fun j hjk => ?_⟩
  exact Vector.getElem_set_ne k.isLt j.isLt fun hkj => hjk (Fin.ext hkj.symm)

end Sys2Proof.Machine

/-! ## Several instances: the order of their steps -/

namespace Sys2Proof.Machine

/-- Where the k-th CORE's own step answers, the system's step puts the answer in its place. -/
theorem stepOne_of_step {n : Nat} {cores : Instances n} {k : Fin n} {t : State} (h : step cores[k] = .next t) :
    cores.stepOne k = .next (cores.set k t) := by
  rw [Instances.stepOne, h]

/-- Instance k steps to the same state of its own after another instance j has stepped. -/
theorem stepOne_after_other {n : Nat} {cores afterJ : Instances n} {j k : Fin n} {t : State} (hjk : j ≠ k)
    (hj : cores.stepOne j = .next afterJ) (hk : step cores[k] = .next t) :
    afterJ.stepOne k = .next (afterJ.set k t) := by
  have hkept : afterJ[k] = cores[k] := (instancesShareNothing n cores afterJ j hj).2 k hjk.symm
  exact stepOne_of_step (hkept ▸ hk)

/-- Settles O51: each instance takes the same step of its own in either order (R31), and writes to two different places
commute. -/
theorem instanceStepsCommute : Obligations.InstanceStepsCommute := by
  intro n cores afterJ afterK j k hjk hj hk
  obtain ⟨t, ht, hafterJ⟩ := stepOne_next hj
  obtain ⟨u, hu, hafterK⟩ := stepOne_next hk
  have hswap : (cores.set k u).set j t = (cores.set j t).set k u :=
    Vector.set_comm u t (Fin.val_ne_of_ne hjk.symm)
  refine ⟨afterJ.set k u, stepOne_after_other hjk hj hu, ?_⟩
  rw [stepOne_after_other hjk.symm hk ht, hafterJ, hafterK, hswap]

end Sys2Proof.Machine

/-! ## The encoding (30_encoding.md): the words' fields, decode by the OP byte, the spelling -/

namespace Sys2Proof

/-! ### Decode, one equation per OP byte (R67) -/

theorem decode_gfDbl {w : CmdWord} (h : fieldOP w = 0x01) : decode w = .ok (.gfDbl (fieldA w)) := by simp [decode, h]

theorem decode_gfMul {w : CmdWord} (h : fieldOP w = 0x02) : decode w = .ok (.gfMul (fieldA w) (fieldB w)) := by
  simp [decode, h]

theorem decode_affFwdG {w : CmdWord} (h : fieldOP w = 0x03) : decode w = .ok (.affFwdG (fieldA w)) := by
  simp [decode, h]

theorem decode_affFwdS {w : CmdWord} (h : fieldOP w = 0x13) : decode w = .ok (.affFwdS (fieldA w)) := by
  simp [decode, h]

theorem decode_affInvG {w : CmdWord} (h : fieldOP w = 0x04) : decode w = .ok (.affInvG (fieldA w)) := by
  simp [decode, h]

theorem decode_affInvS {w : CmdWord} (h : fieldOP w = 0x14) : decode w = .ok (.affInvS (fieldA w)) := by
  simp [decode, h]

theorem decode_shrG {w : CmdWord} (h : fieldOP w = 0x05) : decode w = .ok (.shrG (fieldS w)) := by simp [decode, h]

theorem decode_shrS {w : CmdWord} (h : fieldOP w = 0x15) : decode w = .ok (.shrS (fieldS w)) := by simp [decode, h]

theorem decode_mixc {w : CmdWord} (h : fieldOP w = 0x06) : decode w = .ok (.mixc (fieldS w)) := by simp [decode, h]

/-- Settles O1: the encoded word's OP byte selects the operation, and each field it reads holds what was packed there. -/
theorem decodeOfEncodeIsTheInstruction : Obligations.DecodeOfEncodeIsTheInstruction := by
  intro i
  have hop : fieldOP (encode i) = i.op := (Laws.EncodedFields.statement i).1
  cases i with
  | gfDbl a => rw [decode_gfDbl hop, encode, fieldA_packCmd]
  | gfMul a b => rw [decode_gfMul hop, encode, fieldA_packCmd, fieldB_packCmd]
  | affFwdG a => rw [decode_affFwdG hop, encode, fieldA_packCmd]
  | affFwdS a => rw [decode_affFwdS hop, encode, fieldA_packCmd]
  | affInvG a => rw [decode_affInvG hop, encode, fieldA_packCmd]
  | affInvS a => rw [decode_affInvS hop, encode, fieldA_packCmd]
  | shrG st => rw [decode_shrG hop, encode, fieldS_packCmd]
  | shrS st => rw [decode_shrS hop, encode, fieldS_packCmd]
  | mixc st => rw [decode_mixc hop, encode, fieldS_packCmd]

/-! ### The command word's fields (R60) -/

/-- The lanes of a State field, packed again, are the field (R43). -/
theorem packLanes_lanesOf (x : BitVec 128) : packLanes (lanesOf x) = x := by
  apply BitVec.eq_of_getLsbD_eq
  intro i hi
  have hlane : 8 * (i / 8) + i % 8 = i := by omega
  have hbit : i % 8 < 8 := by omega
  rw [packLanes_getLsbD _ i hi, lanesOf_getElem, BitVec.getLsbD_extractLsb', hlane, decide_eq_true hbit, Bool.true_and]

theorem fieldOP_getLsbD (w : CmdWord) {i : Nat} (hi : i < 8) : (fieldOP w).getLsbD i = w.getLsbD i := by
  simp [fieldOP, hi]

theorem fieldA_getLsbD (w : CmdWord) {i : Nat} (hi : i < 8) : (fieldA w).getLsbD i = w.getLsbD (8 + i) := by
  simp [fieldA, hi]

theorem fieldB_getLsbD (w : CmdWord) {i : Nat} (hi : i < 8) : (fieldB w).getLsbD i = w.getLsbD (16 + i) := by
  simp [fieldB, hi]

theorem packLanes_fieldS (w : CmdWord) : packLanes (fieldS w) = w.extractLsb' 24 128 := packLanes_lanesOf _

theorem packLanes_fieldS_getLsbD (w : CmdWord) {i : Nat} (hi : i < 128) :
    (packLanes (fieldS w)).getLsbD i = w.getLsbD (24 + i) := by
  simp [packLanes_fieldS, hi]

/-- The four fields are all of the command word. -/
theorem packCmd_fields (w : CmdWord) : packCmd (fieldOP w) (fieldA w) (fieldB w) (fieldS w) = w := by
  apply BitVec.eq_of_getLsbD_eq
  intro i hi
  rw [packCmd_getLsbD _ _ _ _ i hi, packLanes_fieldS, fieldOP, fieldA, fieldB]
  simp only [BitVec.getLsbD_extractLsb']
  by_cases h8 : i < 8
  · have h16 : i < 16 := by omega
    have h24 : i < 24 := by omega
    simp [h8, h16, h24]
  by_cases h16 : i < 16
  · have h24 : i < 24 := by omega
    have hA : i - 8 < 8 := by omega
    have hi' : 8 + (i - 8) = i := by omega
    simp [h8, h16, h24, hA, hi']
  by_cases h24 : i < 24
  · have hA : ¬ i - 8 < 8 := by omega
    have hB : i - 16 < 8 := by omega
    have hi' : 16 + (i - 16) = i := by omega
    simp [h8, h16, h24, hA, hB, hi']
  · have hA : ¬ i - 8 < 8 := by omega
    have hB : ¬ i - 16 < 8 := by omega
    have hS : i - 24 < 128 := by omega
    have hi' : 24 + (i - 24) = i := by omega
    simp [h8, h16, h24, hA, hB, hS, hi']

/-- Settles O2: the bits of each field, and the four fields packed again. -/
theorem commandWordLayout : Obligations.CommandWordLayout := fun w =>
  ⟨fun _ hi => ⟨fieldOP_getLsbD w hi, fieldA_getLsbD w hi, fieldB_getLsbD w hi⟩,
    fun _ hi => packLanes_fieldS_getLsbD w hi, packCmd_fields w⟩

/-! ### Which words decode (R63 to R67) -/

/-- A word decodes exactly when its OP byte is one of the nine. -/
theorem decode_ok_iff (w : CmdWord) : (∃ i, decode w = .ok i) ↔ fieldOP w ∈ legalOps := by
  refine ⟨fun ⟨i, hi⟩ => ?_, fun h => (decode_legal h).imp fun _ hi => hi.1⟩
  by_contra hop
  rw [decode_illegal hop] at hi
  cases hi

/-- The field rules call legal exactly the nine OP bytes of the list: checked over the 256. -/
theorem opLegal_iff_listed : ∀ op : Byte, opLegal op = true ↔ op ∈ legalOps := by decide

/-- The field rules of an OP byte, over the bits of the word it stands in. -/
theorem opLegal_fieldOP (w : CmdWord) : opLegal (fieldOP w) = true ↔
    w.extractLsb' 5 3 = 0 ∧ (1 ≤ (w.extractLsb' 0 4).toNat ∧ (w.extractLsb' 0 4).toNat ≤ 6) ∧
      (w.getLsbD 4 = true → (w.extractLsb' 0 4).toNat ∈ [3, 4, 5]) := by
  have hreserved : (fieldOP w).extractLsb' 5 3 = w.extractLsb' 5 3 := by
    simp [fieldOP, BitVec.extractLsb'_extractLsb'_of_le]
  have hfunction : (fieldOP w).extractLsb' 0 4 = w.extractLsb' 0 4 := by
    simp [fieldOP, BitVec.extractLsb'_extractLsb'_of_le]
  have hstrategy : (3 ≤ (w.extractLsb' 0 4).toNat ∧ (w.extractLsb' 0 4).toNat ≤ 5) ↔
      (w.extractLsb' 0 4).toNat ∈ [3, 4, 5] := by
    simp only [List.mem_cons, List.not_mem_nil, or_false]
    omega
  simp only [opLegal, reservedClear, functionDefined, strategyAllowed, hreserved, hfunction,
    fieldOP_getLsbD w (show 4 < 8 by decide), Bool.and_eq_true, Bool.or_eq_true, Bool.not_eq_true', beq_iff_eq,
    decide_eq_true_eq, hstrategy, and_assoc, imp_iff_not_or, Bool.not_eq_true]

/-- Settles O6: decode answers on the nine OP bytes, which are those the field rules allow. -/
theorem fieldRulesAgreeWithDecode : Obligations.FieldRulesAgreeWithDecode := fun w =>
  (decode_ok_iff w).trans ((opLegal_iff_listed _).symm.trans (opLegal_fieldOP w))

/-! ### Decode drops a field that is not read (R69) -/

/-- Words that agree on OP and on what its operation reads decode alike: nine cases, and the illegal bytes. -/
theorem decode_congr {w w' : CmdWord} (h : agreeOnRead w w') : decode w = decode w' := by
  obtain ⟨hop, ha, hb, hs⟩ := h
  by_cases hl : fieldOP w ∈ legalOps
  · simp only [legalOps, List.mem_cons, List.not_mem_nil, or_false] at hl
    rcases hl with h | h | h | h | h | h | h | h | h
    · rw [decode_gfDbl h, decode_gfDbl (hop ▸ h), ha (h ▸ rfl)]
    · rw [decode_gfMul h, decode_gfMul (hop ▸ h), ha (h ▸ rfl), hb (h ▸ rfl)]
    · rw [decode_affFwdG h, decode_affFwdG (hop ▸ h), ha (h ▸ rfl)]
    · rw [decode_affFwdS h, decode_affFwdS (hop ▸ h), ha (h ▸ rfl)]
    · rw [decode_affInvG h, decode_affInvG (hop ▸ h), ha (h ▸ rfl)]
    · rw [decode_affInvS h, decode_affInvS (hop ▸ h), ha (h ▸ rfl)]
    · rw [decode_shrG h, decode_shrG (hop ▸ h), hs (h ▸ rfl)]
    · rw [decode_shrS h, decode_shrS (hop ▸ h), hs (h ▸ rfl)]
    · rw [decode_mixc h, decode_mixc (hop ▸ h), hs (h ▸ rfl)]
  · rw [decode_illegal hl, decode_illegal (hop ▸ hl), hop]

end Sys2Proof

namespace Sys2Proof.Machine

/-! ### The response word's fields (R61) -/

/-- Bit i of a response word, by the field it falls in. -/
theorem Rsp.word_getLsbD (r : Rsp) {i : Nat} (hi : i < 138) :
    r.word.getLsbD i =
      (r.rb.getLsbD i || (!decide (i < 8) && (packLanes r.rs).getLsbD (i - 8)) ||
        (!decide (i < 136) && r.status.getLsbD (i - 136))) := by
  have h8 : i - 8 < 138 := by omega
  have h136 : i - 136 < 138 := by omega
  simp only [Rsp.word, BitVec.getLsbD_or, BitVec.getLsbD_shiftLeft, BitVec.getLsbD_setWidth, hi, h8, h136, decide_true,
    Bool.true_and]

theorem Rsp.word_getLsbD_rb (r : Rsp) {i : Nat} (hi : i < 8) : r.word.getLsbD i = r.rb.getLsbD i := by
  have h136 : i < 136 := by omega
  simp [r.word_getLsbD (show i < 138 by omega), hi, h136]

theorem Rsp.word_getLsbD_rs (r : Rsp) {i : Nat} (hi : i < 128) :
    r.word.getLsbD (8 + i) = (packLanes r.rs).getLsbD i := by
  have h136 : 8 + i < 136 := by omega
  simp [r.word_getLsbD (show 8 + i < 138 by omega), h136]

theorem Rsp.word_getLsbD_status (r : Rsp) {i : Nat} (hi : i < 2) :
    r.word.getLsbD (136 + i) = r.status.getLsbD i := by
  have hrb := BitVec.getLsbD_of_ge r.rb (136 + i) (by omega)
  have hrs := BitVec.getLsbD_of_ge (packLanes r.rs) (136 + i - 8) (by omega)
  simp [r.word_getLsbD (show 136 + i < 138 by omega), hrb, hrs]

/-- The fields of a response's word are the response. -/
theorem Rsp.ofWord_word (r : Rsp) : Rsp.ofWord r.word = r := by
  have hrb : r.word.extractLsb' 0 8 = r.rb := by
    apply BitVec.eq_of_getLsbD_eq
    intro i hi
    simp [hi, r.word_getLsbD_rb hi]
  have hrs : r.word.extractLsb' 8 128 = packLanes r.rs := by
    apply BitVec.eq_of_getLsbD_eq
    intro i hi
    simp [hi, r.word_getLsbD_rs hi]
  have hstatus : r.word.extractLsb' 136 2 = r.status := by
    apply BitVec.eq_of_getLsbD_eq
    intro i hi
    simp [hi, r.word_getLsbD_status hi]
  rw [Rsp.ofWord, hrb, hrs, hstatus, lanesOf_packLanes]

/-- Settles O3: the bits of each field, the fields read back, and the four codes. -/
theorem responseWordLayout : Obligations.ResponseWordLayout :=
  ⟨fun r => ⟨fun _ => r.word_getLsbD_rb, fun _ => r.word_getLsbD_rs, fun _ => r.word_getLsbD_status, r.ofWord_word⟩,
    rfl, fun _ _ => rfl, fun _ => rfl, fun _ => rfl⟩

/-! ### The State's byte lanes (R62) -/

/-- Bit i of lane k of a State field that starts at bit p of a word is bit p + 8k + i of the word. -/
theorem lanesOf_extractLsb'_getLsbD {n : Nat} (x : BitVec n) (p : Nat) {k i : Nat} (hk : k < 16) (hi : i < 8) :
    ((lanesOf (x.extractLsb' p 128))[k]).getLsbD i = x.getLsbD (p + 8 * k + i) := by
  have hbit : 8 * k + i < 128 := by omega
  simp [lanesOf_getElem _ k hk, hi, hbit, Nat.add_assoc]

/-- Byte k of a State stands in row k mod 4 and column k div 4 of its nested form (R9). -/
theorem toMatrix_lane (f : Block) (k : Fin 16) : (toMatrix f)[k.val % 4]?.bind (·[k.val / 4]?) = some f[k] := by
  have hr : k.val % 4 < 4 := by omega
  have hc : k.val / 4 < 4 := by omega
  have hk : k.val % 4 + 4 * (k.val / 4) = k.val := by omega
  simp [hr, hc, toMatrix_getElem, hk]

/-- Settles O4: lanes of S start at bit 24 of CMD, lanes of RS at bit 8 of RSP. -/
theorem stateByteLanes : Obligations.StateByteLanes := fun w v k =>
  ⟨fun _ hi => ⟨lanesOf_extractLsb'_getLsbD w 24 k.isLt hi, lanesOf_extractLsb'_getLsbD v 8 k.isLt hi⟩,
    fun f => toMatrix_lane f k⟩

/-! ### The response does not depend on a field that is not read (R69) -/

/-- Settles O14: the two words run the same instruction, or raise the same fault and answer a next state (log 4). -/
theorem unreadFieldsAreDontCare : Obligations.UnreadFieldsAreDontCare := by
  intro s w w' rest h
  have hop : fieldOP w = fieldOP w' := h.1
  by_cases hl : fieldOP w ∈ legalOps
  · obtain ⟨i, hd, hi, hs⟩ := step_command_legal (s := { s with pending := .command w :: rest }) rfl hl
    have hs' := stepRunsTheDecodedInstruction { s with pending := .command w' :: rest } w' rest i rfl
      (decode_congr h ▸ hd)
    obtain ⟨r, r', he, he', hagree⟩ :=
      exec_agree i { s with pending := rest, cmd := some w } { s with pending := rest, cmd := some w' }
    exact ⟨_, _, .ok r, .ok r', hs.trans he, hs'.trans he', rfl, rfl, hi ▸ hagree, .inl ⟨rfl, rfl⟩⟩
  · have hs := step_command_illegal (s := { s with pending := .command w :: rest }) rfl hl
    have hs' := step_command_illegal (s := { s with pending := .command w' :: rest }) rfl (hop ▸ hl)
    rw [← hop] at hs'
    exact ⟨_, _, _, _, hs, hs', rfl, rfl, agreeOnWritten_illegal hl rfl, .inr ⟨_, rfl, rfl⟩⟩

/-! ### Decode over the OP bytes, and the faults of a step -/

/-- The nine legal OP bytes are all below 22. -/
theorem legalOps_lt : ∀ op ∈ legalOps, op.toNat < 22 := by decide

/-- Of the 256 OP values 247 are illegal: 13 of the first 22, and every other. -/
theorem countP_illegal_op : ((List.range 256).countP fun v => !legalOps.contains (BitVec.ofNat 8 v)) = 247 := by
  have hhigh : ∀ v ∈ (List.range 234).map (22 + ·), (!legalOps.contains (BitVec.ofNat 8 v)) = true := by
    intro v hv
    obtain ⟨u, hu, rfl⟩ := List.mem_map.mp hv
    have hlt : u < 234 := List.mem_range.mp hu
    have hnotin : BitVec.ofNat 8 (22 + u) ∉ legalOps := fun hmem => by
      have := legalOps_lt _ hmem
      rw [BitVec.toNat_ofNat] at this
      omega
    simpa using hnotin
  rw [show 256 = 22 + 234 from rfl, List.range_add, List.countP_append, List.countP_eq_length.mpr hhigh,
    List.length_map, List.length_range]
  decide

/-- Settles O5: one decode equation per OP byte, and ILLEGAL_OP recorded for the others (that the step answers a next
state is log 4). -/
theorem decodeTotalOverOpBytes : Obligations.DecodeTotalOverOpBytes :=
  ⟨fun _ => ⟨decode_gfDbl, decode_gfMul, decode_affFwdG, decode_affFwdS, decode_affInvG, decode_affInvS, decode_shrG,
    decode_shrS, decode_mixc, fun hop => ⟨decode_illegal hop, fun _ _ hp => ⟨_, step_command_illegal hp hop, rfl⟩⟩⟩,
    countP_illegal_op⟩

/-- Settles O7: decode evaluated on each of the spec's words. -/
theorem specWordsDecode : Obligations.SpecWordsDecode :=
  ⟨rfl, rfl, rfl, rfl, rfl, rfl, rfl, rfl, rfl, rfl⟩

/-- Settles O11: the step raises ILLEGAL_OP with the word on the command port, and the run goes on (log 4). -/
theorem illegalOpIsRecorded : Obligations.IllegalOpIsRecorded := fun _ _ _ hp hop =>
  ⟨_, step_command_illegal hp hop, rfl, rfl, rfl, rfl, rfl⟩

/-- The step on a Call that meets a boundary error raises it: no command word is built, so the port stays (log 9). -/
theorem step_call_fault {s : State} {c : Call} {rest : List HostInput} {info : FaultInfo}
    (hp : s.pending = .call c :: rest) (hc : c.toInstr = .error (.fault info)) :
    step s = .next (State.raise { s with pending := rest } info) := by
  rw [step_cons hp]
  exact runCall_fault hc _

/-- Settles O48: the step raises the boundary error and answers a next state (log 4). -/
theorem boundaryErrorIsRecorded : Obligations.BoundaryErrorIsRecorded := fun _ _ _ _ hp hc =>
  ⟨_, step_call_fault hp hc, rfl, rfl, rfl, rfl, rfl⟩

/-! ### The hexadecimal spelling of a command word (R73) -/

/-- The number that hexadecimal digits stand for, most significant first. -/
def hexValue (digits : List Char) : Nat :=
  digits.foldl (fun v c => 16 * v + "0123456789abcdef".toList.idxOf c) 0

theorem hexDigit_mem : ∀ n < 16, hexDigit n ∈ "0123456789abcdef".toList := by decide

theorem idxOf_hexDigit : ∀ n < 16, "0123456789abcdef".toList.idxOf (hexDigit n) = n := by decide

theorem hexDigits_length (n v : Nat) : (hexDigits n v).length = n := by
  induction n generalizing v with
  | zero => rfl
  | succ n ih => simp [hexDigits, ih]

theorem mem_hexDigits {n v : Nat} {c : Char} (h : c ∈ hexDigits n v) : c ∈ "0123456789abcdef".toList := by
  induction n generalizing v with
  | zero => cases h
  | succ n ih =>
    rw [hexDigits, List.mem_append, List.mem_singleton] at h
    obtain h | rfl := h
    · exact ih h
    · exact hexDigit_mem _ (Nat.mod_lt v (by decide))

theorem hexValue_append_digit (digits : List Char) {d : Nat} (hd : d < 16) :
    hexValue (digits ++ [hexDigit d]) = 16 * hexValue digits + d := by
  rw [hexValue, List.foldl_append, List.foldl_cons, List.foldl_nil, idxOf_hexDigit d hd, hexValue]

/-- n digits are enough for a number below 16^n. -/
theorem hexValue_hexDigits {n v : Nat} (h : v < 16 ^ n) : hexValue (hexDigits n v) = v := by
  induction n generalizing v with
  | zero => exact (Nat.lt_one_iff.mp h).symm
  | succ n ih =>
    have hhigh : v / 16 < 16 ^ n := Nat.div_lt_of_lt_mul (by rwa [← Nat.pow_succ'])
    rw [hexDigits, hexValue_append_digit _ (Nat.mod_lt v (by decide)), ih hhigh]
    exact Nat.div_add_mod v 16

theorem packLanes_zeroBlock : packLanes zeroBlock = 0 := by
  apply BitVec.eq_of_getLsbD_eq
  intro i hi
  simp [packLanes_getLsbD _ i hi, zeroBlock]

/-- A word with S = 0 is a number of its low 24 bits. -/
theorem toNat_lt_of_fieldS_eq_zero {w : CmdWord} (h : fieldS w = zeroBlock) : w.toNat < 16 ^ 6 := by
  have hzero : w.extractLsb' 24 128 = 0 := by
    rw [← packLanes_fieldS, h, packLanes_zeroBlock]
  have hshift : w.toNat / 2 ^ 24 % 2 ^ 128 = 0 := by
    rw [← Nat.shiftRight_eq_div_pow, ← BitVec.extractLsb'_toNat, hzero]
    simp
  have := w.isLt
  omega

/-- The spelling has digits enough for the word. -/
theorem toNat_lt_pow_spelledDigits (w : CmdWord) : w.toNat < 16 ^ spelledDigits w := by
  rw [spelledDigits]
  split
  · next h => exact toNat_lt_of_fieldS_eq_zero h.1
  · exact w.isLt

/-- An operation reads S exactly when its OP byte is one of the three state operations (R66). -/
theorem readsS_eq_false_iff (op : Byte) : readsS op = false ↔ op ∉ [0x05, 0x15, 0x06] := by
  simp [readsS]

/-- Settles O8: the digits are those of the word's number, 6 or 38 of them, and the word lies below that power of 16. The
count for an illegal word with S = 0 and the lower-case letters are the model's (log 16). -/
theorem hexSpellingReadsBack : Obligations.HexSpellingReadsBack := by
  intro w
  have hlength : (hexDigits (spelledDigits w) w.toNat).length =
      if fieldS w = zeroBlock ∧ fieldOP w ∉ [0x05, 0x15, 0x06] then 6 else 38 := by
    simp only [hexDigits_length, spelledDigits, readsS_eq_false_iff]
  have hvalue := hexValue_hexDigits (toNat_lt_pow_spelledDigits w)
  rw [hexValue] at hvalue
  refine ⟨hexDigits (spelledDigits w) w.toNat, rfl, fun h => ?_, fun h => ?_, fun _ => mem_hexDigits, hvalue⟩
  · exact hlength.trans (if_neg fun ⟨hS, hop⟩ => h.elim hop fun hne => hne hS)
  · exact hlength.trans (if_pos ⟨h.2, h.1⟩)

end Sys2Proof.Machine

/-! ## GF(2^8) arithmetic (40_gf_arith.md) -/

namespace Sys2Proof.Machine

/-! ### XOR sums over the bits of a byte

Both products, and the multiples of 0x11B, add one term for each set bit of a byte. What is additive over XOR goes
through such a sum, so most of what follows is checked on the eight powers of x alone. -/

/-- The XOR of those of the first n terms f 0, f 1, … whose bit is set in y. -/
def xorSum {w : Nat} (y : Byte) (f : Nat → BitVec w) (n : Nat) : BitVec w :=
  (List.range n).foldl (fun p i => if y.getLsbD i then p ^^^ f i else p) 0

/-- L is additive over XOR. -/
def XorLinear {v w : Nat} (L : BitVec v → BitVec w) : Prop := ∀ p q, L (p ^^^ q) = L p ^^^ L q

theorem xor_xor_xor_swap {w : Nat} (a b c d : BitVec w) : (a ^^^ b) ^^^ (c ^^^ d) = (a ^^^ c) ^^^ (b ^^^ d) := by
  ac_rfl

theorem xorSum_succ {w : Nat} (y : Byte) (f : Nat → BitVec w) (n : Nat) :
    xorSum y f (n + 1) = xorSum y f n ^^^ if y.getLsbD n then f n else 0 := by
  rw [xorSum, List.range_succ, List.foldl_append, List.foldl_cons, List.foldl_nil, xorSum]
  split
  · rfl
  · exact BitVec.xor_zero.symm

theorem xorSum_congr {w : Nat} (y : Byte) {f g : Nat → BitVec w} {n : Nat} (h : ∀ i < n, f i = g i) :
    xorSum y f n = xorSum y g n := by
  induction n with
  | zero => rfl
  | succ n ih => rw [xorSum_succ, xorSum_succ, ih fun i hi => h i (Nat.lt_succ_of_lt hi), h n n.lt_succ_self]

/-- What holds of 0 and of every term, and is kept by XOR, holds of the sum. -/
theorem xorSum_induction {w : Nat} {P : BitVec w → Prop} (hzero : P 0) (hxor : ∀ p q, P p → P q → P (p ^^^ q))
    (y : Byte) {f : Nat → BitVec w} {n : Nat} (hterm : ∀ i < n, P (f i)) : P (xorSum y f n) := by
  induction n with
  | zero => exact hzero
  | succ n ih =>
    rw [xorSum_succ]
    apply hxor _ _ (ih fun i hi => hterm i (Nat.lt_succ_of_lt hi))
    split
    · exact hterm n n.lt_succ_self
    · exact hzero

/-- The sum is additive in the byte that selects the terms. -/
theorem xorLinear_xorSum {w : Nat} (f : Nat → BitVec w) (n : Nat) : XorLinear fun y : Byte => xorSum y f n := by
  intro y z
  induction n with
  | zero => exact BitVec.xor_zero.symm
  | succ n ih =>
    have hterm : (if (y ^^^ z).getLsbD n then f n else 0) =
        (if y.getLsbD n then f n else 0) ^^^ if z.getLsbD n then f n else 0 := by
      rw [BitVec.getLsbD_xor]
      cases y.getLsbD n <;> cases z.getLsbD n <;> simp
    simp only [xorSum_succ, ih, hterm, xor_xor_xor_swap]

/-- The sum is additive in its terms. -/
theorem xorSum_xor_terms {w : Nat} (y : Byte) (f g : Nat → BitVec w) (n : Nat) :
    xorSum y (fun i => f i ^^^ g i) n = xorSum y f n ^^^ xorSum y g n := by
  induction n with
  | zero => exact BitVec.xor_zero.symm
  | succ n ih =>
    have hterm : (if y.getLsbD n then f n ^^^ g n else 0) =
        (if y.getLsbD n then f n else 0) ^^^ if y.getLsbD n then g n else 0 := by
      cases y.getLsbD n <;> simp
    rw [xorSum_succ, xorSum_succ, xorSum_succ, ih, hterm, xor_xor_xor_swap]

theorem XorLinear.map_zero {v w : Nat} {L : BitVec v → BitVec w} (hL : XorLinear L) : L 0 = 0 := by
  have h := hL 0 0
  rwa [BitVec.ofNat_eq_ofNat, BitVec.xor_self, BitVec.xor_self] at h

/-- An additive map goes through the sum, term by term. -/
theorem XorLinear.map_xorSum {v w : Nat} {L : BitVec v → BitVec w} (hL : XorLinear L) (y : Byte) (f : Nat → BitVec v)
    (n : Nat) : L (xorSum y f n) = xorSum y (fun i => L (f i)) n := by
  induction n with
  | zero => exact hL.map_zero
  | succ n ih => rw [xorSum_succ, xorSum_succ, hL, ih, apply_ite L, hL.map_zero]

theorem XorLinear.iterate {w : Nat} {L : BitVec w → BitVec w} (hL : XorLinear L) (n : Nat) : XorLinear L^[n] := by
  induction n with
  | zero => exact fun _ _ => rfl
  | succ n ih =>
    intro p q
    rw [Function.iterate_succ_apply', ih p q, hL, Function.iterate_succ_apply', Function.iterate_succ_apply']

/-- Adding a constant where a bit is set, after an additive map, is additive: one step of a reduction. -/
theorem XorLinear.reduceStep {v w : Nat} {L : BitVec v → BitVec w} (hL : XorLinear L) (k : Nat) (c : BitVec w) :
    XorLinear fun p => if p.getLsbD k then L p ^^^ c else L p := by
  intro p q
  simp only [BitVec.getLsbD_xor, hL p q]
  cases p.getLsbD k <;> cases q.getLsbD k <;>
    simp only [Bool.xor_false, Bool.false_xor, Bool.xor_self, Bool.false_eq_true, if_true, if_false]
  · ac_rfl
  · ac_rfl
  · rw [xor_xor_xor_swap, BitVec.xor_self, BitVec.xor_zero]

/-- A fold of additive steps is additive. -/
theorem XorLinear.foldl {w : Nat} {step : BitVec w → Nat → BitVec w} (hstep : ∀ i, XorLinear fun p => step p i)
    (l : List Nat) : XorLinear fun p => l.foldl step p := by
  induction l with
  | nil => exact fun _ _ => rfl
  | cons i l ih =>
    intro p q
    simp only [List.foldl_cons, hstep i p q]
    exact ih _ _

/-! ### Doubling (R101, R102) -/

theorem xorLinear_xtime : XorLinear xtime :=
  XorLinear.reduceStep (L := (· <<< 1)) (fun p q => BitVec.shiftLeft_xor_distrib p q 1) 7 REDUCTION_CONST

/-- The pre-shift high bit is set from 0x80 on. -/
theorem getLsbD_seven (b : Byte) : b.getLsbD 7 = decide (0x80 ≤ b.toNat) := by
  rw [← BitVec.msb_eq_getLsbD_last, BitVec.msb_eq_decide]

theorem xtime_toNat_of_lt {b : Byte} (h : b.toNat < 0x80) : (xtime b).toNat = 2 * b.toNat % 256 := by
  rw [xtime, getLsbD_seven, decide_eq_false (Nat.not_le.mpr h), if_neg Bool.false_ne_true, BitVec.toNat_shiftLeft,
    Nat.shiftLeft_eq, Nat.mul_comm]

theorem xtime_toNat_of_ge {b : Byte} (h : 0x80 ≤ b.toNat) : (xtime b).toNat = (2 * b.toNat % 256) ^^^ 0x1B := by
  rw [xtime, getLsbD_seven, decide_eq_true h, if_pos rfl, BitVec.toNat_xor, BitVec.toNat_shiftLeft, Nat.shiftLeft_eq,
    Nat.mul_comm]
  rfl

/-- Settles O23: RB is xtime of A, whose value is twice A, reduced from 0x80 on. -/
theorem gfDblDoublesInTheField : Obligations.GfDblDoublesInTheField := by
  refine fun a s => ⟨_, rfl, rfl, fun h => ?_, fun h => ?_⟩
  · have hdouble : (xtime a).toNat = 2 * a.toNat % 256 := xtime_toNat_of_lt h
    exact hdouble.trans (Nat.mod_eq_of_lt (by omega))
  · have hdouble : (xtime a).toNat = (2 * a.toNat % 256) ^^^ 0x1B := xtime_toNat_of_ge h
    exact BitVec.eq_of_toNat_eq (by rw [BitVec.toNat_xor, BitVec.toNat_ofNat]; exact hdouble)

/-! ### The product as a sum (R103) -/

/-- After n iterations the accumulator holds the sum of the first n doublings of x that y selects. -/
theorem foldl_gmulIteration (x y : Byte) (n : Nat) :
    (List.range n).foldl (gmulIteration y) (0, x) = (xorSum y (fun i => xtime^[i] x) n, xtime^[n] x) := by
  induction n with
  | zero => rfl
  | succ n ih =>
    rw [List.range_succ, List.foldl_append, List.foldl_cons, List.foldl_nil, ih, gmulIteration,
      Function.iterate_succ_apply', xorSum_succ]
    cases y.getLsbD n <;> simp

theorem gmul_eq_xorSum (x y : Byte) : gmul x y = xorSum y (fun i => xtime^[i] x) 8 :=
  congrArg Prod.fst (foldl_gmulIteration x y 8)

theorem gmul_xor_right (x y z : Byte) : gmul x (y ^^^ z) = gmul x y ^^^ gmul x z := by
  simp only [gmul_eq_xorSum]
  exact xorLinear_xorSum _ 8 y z

theorem gmul_xor_left (x y z : Byte) : gmul (x ^^^ y) z = gmul x z ^^^ gmul y z := by
  simp only [gmul_eq_xorSum, ← xorSum_xor_terms]
  exact xorSum_congr z fun i _ => xorLinear_xtime.iterate i x y

theorem gmul_zero (x : Byte) : gmul x 0 = 0 := XorLinear.map_zero (L := gmul x) (gmul_xor_right x)

theorem gmul_one (x : Byte) : gmul x 1 = x := by
  rw [gmul_eq]
  simp [gmulIteration]

theorem gmul_two (x : Byte) : gmul x 2 = xtime x := by
  rw [gmul_eq]
  simp [gmulIteration]

/-- The doublings of 1 are the powers of x: the bits of a byte are its coefficients (checked over the 256 bytes). -/
theorem one_gmul : ∀ y : Byte, gmul 1 y = y := by decide

/-- A byte is the sum of the powers of x at its set bits. -/
theorem eq_xorSum_powers (y : Byte) : y = xorSum y (fun i => xtime^[i] 1) 8 := by
  rw [← gmul_eq_xorSum, one_gmul]

/-- Additive maps of a byte that agree on the eight powers of x agree. -/
theorem XorLinear.ext {w : Nat} {L K : Byte → BitVec w} (hL : XorLinear L) (hK : XorLinear K)
    (h : ∀ i < 8, L (xtime^[i] 1) = K (xtime^[i] 1)) (y : Byte) : L y = K y := by
  rw [eq_xorSum_powers y, hL.map_xorSum, hK.map_xorSum]
  exact xorSum_congr y h

/-! ### The field laws (R107) -/

/-- Doubling the left factor doubles the product. -/
theorem gmul_xtime_left (x y : Byte) : gmul (xtime x) y = xtime (gmul x y) := by
  simp only [gmul_eq_xorSum, xorLinear_xtime.map_xorSum, ← Function.iterate_succ_apply, Function.iterate_succ_apply']

theorem gmul_iterate_xtime_left (n : Nat) (x y : Byte) : gmul (xtime^[n] x) y = xtime^[n] (gmul x y) := by
  induction n with
  | zero => rfl
  | succ n ih => rw [Function.iterate_succ_apply', gmul_xtime_left, ih, Function.iterate_succ_apply']

/-- Both sides are additive in x; at the i-th power of x both are y doubled i times. -/
theorem gmul_comm (x y : Byte) : gmul x y = gmul y x := by
  rw [gmul_eq_xorSum y x]
  calc gmul x y
      = gmul (xorSum x (fun i => xtime^[i] 1) 8) y := by rw [← eq_xorSum_powers]
    _ = xorSum x (fun i => gmul (xtime^[i] 1) y) 8 :=
        XorLinear.map_xorSum (L := (gmul · y)) (fun p q => gmul_xor_left p q y) x _ 8
    _ = xorSum x (fun i => xtime^[i] y) 8 := by simp only [gmul_iterate_xtime_left, one_gmul]

/-- Doubling the right factor doubles the product. -/
theorem gmul_iterate_xtime_right (n : Nat) (x y : Byte) : gmul x (xtime^[n] y) = xtime^[n] (gmul x y) := by
  rw [gmul_comm, gmul_iterate_xtime_left, gmul_comm]

/-- The sum of the doublings of y that z selects, multiplied by x term by term. -/
theorem gmul_assoc (x y z : Byte) : gmul (gmul x y) z = gmul x (gmul y z) := by
  rw [gmul_eq_xorSum y z, XorLinear.map_xorSum (L := gmul x) (gmul_xor_right x), gmul_eq_xorSum]
  simp only [gmul_iterate_xtime_right]

/-- Halving: 0x8D is the inverse of 0x02. -/
theorem xtime_bijective : Function.Bijective xtime := by
  refine Function.bijective_iff_has_inverse.mpr ⟨fun b => gmul b 0x8D, fun b => ?_, fun b => ?_⟩
  · have hhalf : gmul 2 0x8D = 1 := by decide
    change gmul (xtime b) 0x8D = b
    rw [← gmul_two, gmul_assoc, hhalf, gmul_one]
  · have hhalf : gmul 0x8D 2 = 1 := by decide
    rw [← gmul_two, gmul_assoc, hhalf, gmul_one]

/-- Settles O26: the value by the high bit, additivity, and halving as the inverse map. -/
theorem xtimeLaws : Obligations.XtimeLaws :=
  ⟨fun _ => xtime_toNat_of_lt, fun _ => xtime_toNat_of_ge, xorLinear_xtime, xtime_bijective,
    fun b => (gmul_two b).symm⟩

/-! ### Powers and inverses (R107 (g)) -/

/-- x to the n-th power. -/
def gfPow (x : Byte) (n : Nat) : Byte := (fun p => gmul p x)^[n] 1

theorem gfPow_zero (x : Byte) : gfPow x 0 = 1 := rfl

theorem gfPow_succ (x : Byte) (n : Nat) : gfPow x (n + 1) = gmul (gfPow x n) x := Function.iterate_succ_apply' _ n 1

theorem gfPow_add (x : Byte) (m n : Nat) : gfPow x (m + n) = gmul (gfPow x m) (gfPow x n) := by
  induction n with
  | zero => rw [gfPow_zero, gmul_one, Nat.add_zero]
  | succ n ih => rw [← Nat.add_assoc, gfPow_succ, gfPow_succ, ih, gmul_assoc]

/-- The square of x; squared n times over, it is the power 2^n (gfPow_two_pow). -/
def gfSquare (x : Byte) : Byte := gmul x x

/-- Squaring is additive: the two mixed products are equal, and cancel. -/
theorem xorLinear_gfSquare : XorLinear gfSquare := by
  intro x y
  rw [gfSquare, gmul_xor_right, gmul_xor_left, gmul_xor_left, gmul_comm y x, gfSquare, gfSquare, BitVec.xor_assoc,
    ← BitVec.xor_assoc (gmul x y), BitVec.xor_self, BitVec.zero_xor]

theorem gfPow_two_pow (x : Byte) (n : Nat) : gfPow x (2 ^ n) = gfSquare^[n] x := by
  induction n with
  | zero => rw [Nat.pow_zero, gfPow_succ, gfPow_zero, one_gmul, Function.iterate_zero_apply]
  | succ n ih => rw [Nat.pow_succ, Nat.mul_two, gfPow_add, ih, Function.iterate_succ_apply', gfSquare]

/-- Eight squarings give the byte back: an additive map, checked on the powers of x. -/
theorem gfPow_256 (x : Byte) : gfPow x 256 = x := by
  have hbasis : ∀ i < 8, gfSquare^[8] (xtime^[i] 1) = xtime^[i] 1 := by decide
  rw [show 256 = 2 ^ 8 from rfl, gfPow_two_pow]
  exact XorLinear.ext (xorLinear_gfSquare.iterate 8) (K := id) (fun _ _ => rfl) hbasis x

/-- A byte equal to its square is 0 or 1 (checked over the 256 bytes): here the irreducibility of 0x11B enters. -/
theorem eq_zero_or_one_of_gfSquare_eq : ∀ e : Byte, gfSquare e = e → e = 0 ∨ e = 1 := by decide

/-- The 255th power is equal to its square, so it is 0 or 1, and it is not 0 where x is not. -/
theorem gfPow_255 {x : Byte} (hx : x ≠ 0) : gfPow x 255 = 1 := by
  have hsquare : gfSquare (gfPow x 255) = gfPow x 255 := by
    calc gfSquare (gfPow x 255)
        = gfPow x (256 + 254) := by rw [gfSquare, ← gfPow_add]
      _ = gmul (gfPow x 254) x := by rw [gfPow_add, gfPow_256, gmul_comm]
      _ = gfPow x 255 := (gfPow_succ x 254).symm
  refine (eq_zero_or_one_of_gfSquare_eq _ hsquare).resolve_left fun hzero => hx ?_
  rw [← gfPow_256 x, gfPow_succ, hzero, gmul_comm, gmul_zero]

theorem gmul_gfPow_254 {x : Byte} (hx : x ≠ 0) : gmul x (gfPow x 254) = 1 := by
  rw [gmul_comm, ← gfPow_succ, gfPow_255 hx]

theorem gmul_inverse_unique {x y z : Byte} (hy : gmul x y = 1) (hz : gmul x z = 1) : y = z := by
  calc y = gmul (gmul x z) y := by rw [hz, one_gmul]
    _ = gmul (gmul x y) z := by rw [gmul_assoc, gmul_comm z y, ← gmul_assoc]
    _ = z := by rw [hy, one_gmul]

/-- Settles O27: the laws by additivity, and the 254th power as the one inverse. -/
theorem fieldLaws : Obligations.FieldLaws := by
  refine ⟨fun x y => Nat.le_of_lt_succ (gmul x y).isLt, gmul_one, gmul_zero, gmul_comm, gmul_assoc, gmul_xor_right,
    fun x hx => ?_⟩
  have hinverse : gmul x (gfPow x 254) = 1 := gmul_gfPow_254 hx
  exact ⟨⟨gfPow x 254, hinverse, fun y hy => gmul_inverse_unique hy hinverse⟩, hinverse⟩

/-! ### The polynomial product (R106) -/

/-- The multiple q · 0x11B, without carries. -/
def polyMultiple (q : Byte) : BitVec 16 := xorSum q (fun i => 0x11B#16 <<< i) 8

theorem polyMul_eq_xorSum (x y : Byte) : polyMul x y = xorSum y (fun i => x.setWidth 16 <<< i) 8 := rfl

theorem xorLinear_setWidth_shiftLeft (i : Nat) : XorLinear fun x : Byte => x.setWidth 16 <<< i := by
  intro x y
  simp only [BitVec.setWidth_xor, BitVec.shiftLeft_xor_distrib]

/-- A factor of degree at most 7, moved up by i < 8, is a sum of powers of x below the 15th. -/
theorem setWidth_shiftLeft_eq_xorSum (x : Byte) {i : Nat} (hi : i < 8) :
    x.setWidth 16 <<< i = xorSum x (fun j => 1#16 <<< (i + j)) 8 := by
  have hpower : ∀ i < 8, ∀ j < 8, (xtime^[j] 1).setWidth 16 <<< i = 1#16 <<< (i + j) := by decide
  conv_lhs => rw [eq_xorSum_powers x]
  rw [XorLinear.map_xorSum (xorLinear_setWidth_shiftLeft i)]
  exact xorSum_congr x (hpower i hi)

/-- What holds of 0 and of the first 15 powers of x, and is kept by XOR, holds of every product. -/
theorem polyMul_induction {P : BitVec 16 → Prop} (hzero : P 0) (hxor : ∀ p q, P p → P q → P (p ^^^ q))
    (hpower : ∀ k < 15, P (1#16 <<< k)) (x y : Byte) : P (polyMul x y) := by
  rw [polyMul_eq_xorSum]
  refine xorSum_induction hzero hxor y fun i hi => ?_
  rw [setWidth_shiftLeft_eq_xorSum x hi]
  exact xorSum_induction hzero hxor x fun j hj => hpower (i + j) (by omega)

theorem polyMul_lt (x y : Byte) : (polyMul x y).toNat < 2 ^ 15 :=
  polyMul_induction (P := fun p => p.toNat < 2 ^ 15) (by decide)
    (fun p q hp hq => by rw [BitVec.toNat_xor]; exact Nat.xor_lt_two_pow hp hq) (by decide) x y

theorem xorLinear_polyReduce : XorLinear polyReduce := by
  intro p q
  have hstep (i : Nat) : XorLinear fun p : BitVec 16 =>
      if p.getLsbD (14 - i) then p ^^^ (REDUCTION_POLY <<< (6 - i)) else p :=
    XorLinear.reduceStep (L := id) (fun _ _ => rfl) (14 - i) _
  have hfold := XorLinear.foldl hstep (List.range 7) p q
  simp only [polyReduce, hfold, BitVec.setWidth_xor]

/-- The k-th power of x, reduced, is 1 doubled k times. -/
theorem polyReduce_power : ∀ k < 15, polyReduce (1#16 <<< k) = xtime^[k] 1 := by decide

/-- Reducing x moved up by i is doubling x i times: both are additive in x, and agree on its powers. -/
theorem polyReduce_setWidth_shiftLeft (x : Byte) {i : Nat} (hi : i < 8) :
    polyReduce (x.setWidth 16 <<< i) = xtime^[i] x := by
  rw [setWidth_shiftLeft_eq_xorSum x hi, xorLinear_polyReduce.map_xorSum]
  conv_rhs => rw [eq_xorSum_powers x, (xorLinear_xtime.iterate i).map_xorSum]
  refine xorSum_congr x fun j hj => ?_
  rw [polyReduce_power (i + j) (by omega), Function.iterate_add_apply]

theorem gmul_eq_polyReduce_polyMul (x y : Byte) : gmul x y = polyReduce (polyMul x y) := by
  rw [polyMul_eq_xorSum, xorLinear_polyReduce.map_xorSum, gmul_eq_xorSum]
  exact xorSum_congr y fun i hi => (polyReduce_setWidth_shiftLeft x hi).symm

/-- Settles O24: RB is the double-and-add product, which is the reduced polynomial product. -/
theorem gfMulIsThePolynomialProduct : Obligations.GfMulIsThePolynomialProduct := fun a b _ =>
  ⟨_, rfl, rfl, gmul_eq_polyReduce_polyMul a b⟩

/-- p is a multiple of 0x11B plus its reduction. -/
def HasQuotient (p : BitVec 16) : Prop := ∃ q : Byte, p = polyMultiple q ^^^ (polyReduce p).setWidth 16

theorem hasQuotient_xor (p p' : BitVec 16) (hp : HasQuotient p) (hp' : HasQuotient p') : HasQuotient (p ^^^ p') := by
  obtain ⟨q, hq⟩ := hp
  obtain ⟨q', hq'⟩ := hp'
  refine ⟨q ^^^ q', ?_⟩
  have hmultiple : polyMultiple (q ^^^ q') = polyMultiple q ^^^ polyMultiple q' := xorLinear_xorSum _ 8 q q'
  rw [xorLinear_polyReduce, BitVec.setWidth_xor, hmultiple, xor_xor_xor_swap, ← hq, ← hq']

/-- The quotients of the first 15 powers of x. -/
theorem hasQuotient_power : ∀ k < 15, HasQuotient (1#16 <<< k) := by
  unfold HasQuotient
  decide

/-- Settles O25: additivity of the reduction, and the first 15 powers of x, of which every product is a sum. -/
theorem doubleAndAddIsTheReducedProduct : Obligations.DoubleAndAddIsTheReducedProduct := by
  refine fun x y => ⟨gmul_eq_polyReduce_polyMul x y, polyMul_lt x y, ?_⟩
  rw [gmul_eq_polyReduce_polyMul]
  exact polyMul_induction ⟨0, by decide⟩ hasQuotient_xor hasQuotient_power x y

end Sys2Proof.Machine

/-! ## The affine layer (41_affine.md) -/

namespace Sys2Proof.Machine

/-! ### A row's product over GF(2) (R122) -/

/-- An XOR fold is the start value XOR the parity of the number of entries that hold. -/
theorem foldl_xor_eq_parity {α : Type} (f : α → Bool) (l : List α) (init : Bool) :
    l.foldl (fun acc a => acc ^^ f a) init = (init ^^ decide (l.countP f % 2 = 1)) := by
  induction l generalizing init with
  | nil => simp
  | cons a l ih =>
    have hparity : decide ((l.countP f + 1) % 2 = 1) = !decide (l.countP f % 2 = 1) := by
      rw [← decide_not, decide_eq_decide]
      omega
    rw [List.foldl_cons, ih, List.countP_cons]
    cases hfa : f a <;> simp [hparity]

/-- An XOR fold of XORs is the XOR of the two folds. -/
theorem foldl_xor_distrib {α : Type} (f g : α → Bool) (l : List α) (x y : Bool) :
    l.foldl (fun acc a => acc ^^ (f a ^^ g a)) (x ^^ y) =
      (l.foldl (fun acc a => acc ^^ f a) x ^^ l.foldl (fun acc a => acc ^^ g a) y) := by
  induction l generalizing x y with
  | nil => rfl
  | cons a l ih =>
    have hswap : (x ^^ y ^^ (f a ^^ g a)) = (x ^^ f a ^^ (y ^^ g a)) := by
      simp only [Bool.xor_assoc, Bool.xor_left_comm]
    rw [List.foldl_cons, List.foldl_cons, List.foldl_cons, hswap, ih]

theorem rowProduct_eq_parity (row b : Byte) :
    rowProduct row (bitVector8 b) =
      decide (((List.range 8).countP fun j => row.getLsbD j && b.getLsbD j) % 2 = 1) := by
  rw [rowProduct, foldl_xor_eq_parity, Bool.false_xor, ← List.map_coe_finRange_eq_range, List.countP_map]
  simp only [Function.comp_def, Fin.getElem_fin, bitVector8_getElem]

/-- The eight terms of a row's product. -/
theorem rowProduct_bitVector8 (row b : Byte) :
    rowProduct row (bitVector8 b) =
      (row.getLsbD 0 && b.getLsbD 0 ^^ row.getLsbD 1 && b.getLsbD 1 ^^ row.getLsbD 2 && b.getLsbD 2 ^^
        row.getLsbD 3 && b.getLsbD 3 ^^ row.getLsbD 4 && b.getLsbD 4 ^^ row.getLsbD 5 && b.getLsbD 5 ^^
        row.getLsbD 6 && b.getLsbD 6 ^^ row.getLsbD 7 && b.getLsbD 7) := by
  simp only [rowProduct, List.finRange_succ, List.finRange_zero, List.map_cons, List.map_nil, List.foldl_cons,
    List.foldl_nil, Fin.getElem_fin, bitVector8_getElem, Bool.false_xor]
  rfl

/-- A row's product is additive in the vector. -/
theorem rowProduct_xor (row p q : Byte) :
    rowProduct row (bitVector8 (p ^^^ q)) = (rowProduct row (bitVector8 p) ^^ rowProduct row (bitVector8 q)) := by
  simp only [rowProduct, Fin.getElem_fin, bitVector8_getElem, BitVec.getLsbD_xor, Bool.and_xor_distrib_left]
  exact foldl_xor_distrib _ _ _ false false

/-- The doublings of 1 are the unit vectors. -/
theorem getLsbD_power : ∀ j < 8, ∀ i < 8, (xtime^[j] 1).getLsbD i = decide (i = j) := by decide

/-- A row's product with a unit vector is the row's own bit. -/
theorem rowProduct_power (row : Byte) {j : Nat} (hj : j < 8) :
    rowProduct row (bitVector8 (xtime^[j] 1)) = row.getLsbD j := by
  simp (disch := decide) only [rowProduct_bitVector8, getLsbD_power j hj]
  interval_cases j <;> simp [-BitVec.getLsbD_eq_getElem]

/-! ### The general strategy for any matrix (R122) -/

/-- The constant is added last. -/
theorem affineGeneral_eq_xor (m : BitMatrix) (k b : Byte) : affineGeneral m k b = affineGeneral m 0 b ^^^ k := by
  apply BitVec.eq_of_getLsbD_eq
  intro i hi
  simp only [BitVec.getLsbD_xor, affineGeneral_getLsbD _ _ _ i hi, BitVec.ofNat_eq_ofNat, BitVec.getLsbD_zero,
    Bool.xor_false]

/-- Bit i of the matrix-vector product. -/
theorem affineGeneral_zero_getLsbD (m : BitMatrix) (b : Byte) {i : Nat} (hi : i < 8) :
    (affineGeneral m 0 b).getLsbD i = rowProduct m[i] (bitVector8 b) := by
  rw [affineGeneral_getLsbD m 0 b i hi, BitVec.ofNat_eq_ofNat, BitVec.getLsbD_zero, Bool.xor_false]

/-- The matrix-vector product is additive in the vector. -/
theorem xorLinear_affineGeneral (m : BitMatrix) : XorLinear (affineGeneral m 0) := by
  intro p q
  apply BitVec.eq_of_getLsbD_eq
  intro i hi
  simp only [BitVec.getLsbD_xor, affineGeneral_zero_getLsbD m _ hi, rowProduct_xor]

/-- Settles O31: the product is additive and adds the constant last; a row's product is a parity. -/
theorem generalStrategyIsAffine : Obligations.GeneralStrategyIsAffine := by
  refine fun m k p q => ⟨?_, fun i => ?_⟩
  · calc affineGeneral m k (p ^^^ q)
        = affineGeneral m 0 p ^^^ affineGeneral m 0 q ^^^ k := by
          rw [affineGeneral_eq_xor, xorLinear_affineGeneral]
      _ = affineGeneral m 0 p ^^^ k ^^^ (affineGeneral m 0 q ^^^ k) ^^^ k := by
          rw [xor_xor_xor_swap, BitVec.xor_self, BitVec.xor_zero]
      _ = affineGeneral m k p ^^^ affineGeneral m k q ^^^ k := by
          rw [← affineGeneral_eq_xor, ← affineGeneral_eq_xor]
  · rw [affineGeneral_getLsbD m k p i.val i.isLt, rowProduct_eq_parity]
    rfl

/-- The image of the j-th unit vector is column j of the matrix. -/
theorem bitVector8_affineGeneral_power (m : BitMatrix) {j : Nat} (hj : j < 8) :
    bitVector8 (affineGeneral m 0 (xtime^[j] 1)) = columnBits m j := by
  ext i hi
  rw [bitVector8_getElem _ i hi, affineGeneral_zero_getLsbD m _ hi, rowProduct_power _ hj]
  simp [columnBits, -BitVec.getLsbD_eq_getElem]

/-- With N·M the identity, N undoes M: both sides are additive, and N sends column j of M to the j-th unit vector. -/
theorem affineGeneral_leftInverse {m n : BitMatrix}
    (hnm : ∀ i j : Fin 8, rowProduct n[i] (columnBits m j.val) = decide (i = j)) (b : Byte) :
    affineGeneral n 0 (affineGeneral m 0 b) = b := by
  have hlinear : XorLinear fun b => affineGeneral n 0 (affineGeneral m 0 b) := fun p q => by
    simp only [xorLinear_affineGeneral m p q, xorLinear_affineGeneral n _ _]
  refine XorLinear.ext (K := id) hlinear (fun _ _ => rfl) (fun j hj => ?_) b
  apply BitVec.eq_of_getLsbD_eq
  intro i hi
  rw [affineGeneral_zero_getLsbD n _ hi, bitVector8_affineGeneral_power m hj, id, getLsbD_power j hj i hi]
  simpa using hnm ⟨i, hi⟩ ⟨j, hj⟩

/-- Settles O30: the constants cancel by additivity, and N undoes M. -/
theorem inverseMatrixUndoesForward : Obligations.InverseMatrixUndoesForward := by
  intro m n k b hnm
  rw [affineGeneral_eq_xor n, affineGeneral_eq_xor m, xorLinear_affineGeneral, affineGeneral_leftInverse hnm,
    BitVec.xor_assoc, BitVec.xor_self, BitVec.xor_zero]

/-! ### The matrices of D13 (R120, R121) -/

/-- Settles O28: the 64 entries of the table. -/
theorem forwardMatrixBits : Obligations.ForwardMatrixBits := ⟨by decide, rfl⟩

/-- N·M is the identity. -/
theorem invMatrix_mul_fwdMatrix : ∀ i j : Fin 8,
    rowProduct AFFINE_INV_MATRIX[i] (columnBits AFFINE_FWD_MATRIX j.val) = decide (i = j) := by decide

/-- M·N is the identity. -/
theorem fwdMatrix_mul_invMatrix : ∀ i j : Fin 8,
    rowProduct AFFINE_FWD_MATRIX[i] (columnBits AFFINE_INV_MATRIX j.val) = decide (i = j) := by decide

theorem invMatrix_fwdConst : affineGeneral AFFINE_INV_MATRIX 0 AFFINE_FWD_CONST = AFFINE_INV_CONST := by decide

theorem fwdMatrix_invConst : affineGeneral AFFINE_FWD_MATRIX 0 AFFINE_INV_CONST = AFFINE_FWD_CONST := by decide

/-- The inverse transform undoes the forward one. -/
theorem affineInv_affineFwd (b : Byte) :
    affineGeneral AFFINE_INV_MATRIX AFFINE_INV_CONST (affineGeneral AFFINE_FWD_MATRIX AFFINE_FWD_CONST b) = b :=
  invMatrix_fwdConst ▸ inverseMatrixUndoesForward _ _ AFFINE_FWD_CONST b invMatrix_mul_fwdMatrix

/-- The forward transform undoes the inverse one. -/
theorem affineFwd_affineInv (b : Byte) :
    affineGeneral AFFINE_FWD_MATRIX AFFINE_FWD_CONST (affineGeneral AFFINE_INV_MATRIX AFFINE_INV_CONST b) = b :=
  fwdMatrix_invConst ▸ inverseMatrixUndoesForward _ _ AFFINE_INV_CONST b fwdMatrix_mul_invMatrix

/-- Settles O29: the entries of the table; the composition from N·M and the image of the constant. -/
theorem inverseMatrixBits : Obligations.InverseMatrixBits :=
  ⟨by decide, invMatrix_mul_fwdMatrix, invMatrix_fwdConst, rfl, affineInv_affineFwd⟩

/-! ### The two strategies (R123, R129) -/

/-- Bit i of the general forward transform is the cyclic formula of R120: row i's five set bits. -/
theorem affineFwdGeneral_getLsbD (b : Byte) {i : Nat} (hi : i < 8) :
    (affineGeneral AFFINE_FWD_MATRIX AFFINE_FWD_CONST b).getLsbD i =
      (b.getLsbD i ^^ b.getLsbD ((i + 4) % 8) ^^ b.getLsbD ((i + 5) % 8) ^^ b.getLsbD ((i + 6) % 8) ^^
        b.getLsbD ((i + 7) % 8) ^^ (0x63#8).getLsbD i) := by
  rw [affineGeneral_getLsbD _ _ b i hi, rowProduct_bitVector8]
  interval_cases i <;>
    simp [AFFINE_FWD_MATRIX, AFFINE_FWD_CONST, -BitVec.getLsbD_eq_getElem, Bool.xor_comm, Bool.xor_left_comm]

/-- Bit i of the general inverse transform is the cyclic formula of R121: row i's three set bits. -/
theorem affineInvGeneral_getLsbD (b : Byte) {i : Nat} (hi : i < 8) :
    (affineGeneral AFFINE_INV_MATRIX AFFINE_INV_CONST b).getLsbD i =
      (b.getLsbD ((i + 2) % 8) ^^ b.getLsbD ((i + 5) % 8) ^^ b.getLsbD ((i + 7) % 8) ^^ (0x05#8).getLsbD i) := by
  rw [affineGeneral_getLsbD _ _ b i hi, rowProduct_bitVector8]
  interval_cases i <;>
    simp [AFFINE_INV_MATRIX, AFFINE_INV_CONST, -BitVec.getLsbD_eq_getElem, Bool.xor_comm, Bool.xor_left_comm]

theorem affineFwdGeneral_eq_fast (b : Byte) : affineGeneral AFFINE_FWD_MATRIX AFFINE_FWD_CONST b = affineFwdFast b :=
  BitVec.eq_of_getLsbD_eq fun _ hi => (affineFwdGeneral_getLsbD b hi).trans (affineFwdFast_getLsbD b hi).symm

theorem affineInvGeneral_eq_fast (b : Byte) : affineGeneral AFFINE_INV_MATRIX AFFINE_INV_CONST b = affineInvFast b :=
  BitVec.eq_of_getLsbD_eq fun _ hi => (affineInvGeneral_getLsbD b hi).trans (affineInvFast_getLsbD b hi).symm

/-- Settles O36: bit by bit, both strategies are the cyclic formula. -/
theorem affineStrategiesAgree : Obligations.AffineStrategiesAgree := fun b =>
  ⟨affineFwdGeneral_eq_fast b, affineInvGeneral_eq_fast b⟩

/-! ### The four instructions (R124 to R128) -/

/-- Settles O32: the RB of each form is its strategy's byte, given bit by bit. -/
theorem affFwdBits : Obligations.AffFwdBits := fun a _ =>
  ⟨⟨_, rfl, rfl, fun _ hi => affineFwdGeneral_getLsbD a hi⟩, ⟨_, rfl, rfl, fun _ hi => affineFwdFast_getLsbD a hi⟩⟩

/-- Settles O33: as for O32, with the bits of the inverse transform. -/
theorem affInvBits : Obligations.AffInvBits := fun a _ =>
  ⟨⟨_, rfl, rfl, fun _ hi => affineInvGeneral_getLsbD a hi⟩, ⟨_, rfl, rfl, fun _ hi => affineInvFast_getLsbD a hi⟩⟩

/-- Either forward form answers the forward transform of its operand. -/
theorem exec_affFwd {fwd : Byte → Instr} (hfwd : fwd ∈ [Instr.affFwdG, Instr.affFwdS]) (a : Byte) (s : State) :
    ∃ t, exec (fwd a) s = .next t ∧ t.rsp.rb = affineGeneral AFFINE_FWD_MATRIX AFFINE_FWD_CONST a := by
  simp only [List.mem_cons, List.not_mem_nil, or_false] at hfwd
  rcases hfwd with rfl | rfl
  · exact ⟨_, rfl, rfl⟩
  · exact ⟨_, rfl, (affineFwdGeneral_eq_fast a).symm⟩

/-- Either inverse form answers the inverse transform of its operand. -/
theorem exec_affInv {inv : Byte → Instr} (hinv : inv ∈ [Instr.affInvG, Instr.affInvS]) (a : Byte) (s : State) :
    ∃ t, exec (inv a) s = .next t ∧ t.rsp.rb = affineGeneral AFFINE_INV_MATRIX AFFINE_INV_CONST a := by
  simp only [List.mem_cons, List.not_mem_nil, or_false] at hinv
  rcases hinv with rfl | rfl
  · exact ⟨_, rfl, rfl⟩
  · exact ⟨_, rfl, (affineInvGeneral_eq_fast a).symm⟩

/-- Settles O35: whatever the strategies, the RBs are the transforms, which undo each other. -/
theorem affineRoundTrip : Obligations.AffineRoundTrip := by
  intro a s s' fwd hfwd inv hinv
  constructor
  · obtain ⟨t, ht, hrb⟩ := exec_affFwd hfwd a s
    obtain ⟨u, hu, hrb'⟩ := exec_affInv hinv t.rsp.rb s'
    exact ⟨t, u, ht, hu, by rw [hrb', hrb, affineInv_affineFwd]⟩
  · obtain ⟨t, ht, hrb⟩ := exec_affInv hinv a s
    obtain ⟨u, hu, hrb'⟩ := exec_affFwd hfwd t.rsp.rb s'
    exact ⟨t, u, ht, hu, by rw [hrb', hrb, affineFwd_affineInv]⟩

end Sys2Proof.Machine

/-! ## The row permutation (42_shift_rows.md) -/

namespace Sys2Proof.Machine

/-! ### The lane each output lane reads (R150, R151) -/

/-- Settles O38: the sixteen entries of the table. -/
theorem shiftRowsTableEntries : Obligations.ShiftRowsTableEntries := by
  unfold Obligations.ShiftRowsTableEntries
  decide

/-- Lane k = r + 4c of the permuted State is lane r + 4((c + r) mod 4). -/
theorem shiftRowsTable_lane (f : Block) {k : Nat} (hk : k < 16) :
    (shiftRowsTable f)[k] = f[k % 4 + 4 * ((k / 4 + k % 4) % 4)] := by
  have hentry : (SHR_TABLE[k]).val = k % 4 + 4 * ((k / 4 + k % 4) % 4) := shiftRowsTableEntries ⟨k, hk⟩
  simp only [shiftRowsTable_getElem f k hk, Fin.getElem_fin, hentry]

/-- The same by row and column: row r is rotated left by r. -/
theorem shiftRowsTable_row_col (f : Block) {r c : Nat} (hr : r < 4) (hc : c < 4) :
    (shiftRowsTable f)[r + 4 * c] = f[r + 4 * ((c + r) % 4)] := by
  have hrow : (r + 4 * c) % 4 = r := by omega
  have hcol : (r + 4 * c) / 4 = c := by omega
  simp only [shiftRowsTable_lane f (show r + 4 * c < 16 by omega), hrow, hcol]

/-! ### The two strategies and their instructions (R152 to R155) -/

/-- Rotating by index on the matrix is reading by the table on the flat form. -/
theorem shiftRowsGeneral_eq_table (f : Block) : ofMatrix (shiftRowsGeneral (toMatrix f)) = shiftRowsTable f := by
  ext k hk : 1
  rw [ofMatrix_getElem _ k hk, shiftRowsGeneral_getElem _ _ _ (by omega) (by omega),
    toMatrix_getElem _ _ _ (by omega) (by omega), shiftRowsTable_lane f hk]

/-- SHR.G answers the table's permutation. -/
theorem exec_shrG (st : Block) (s : State) :
    exec (.shrG st) s = .next (s.answerBlock (.shrG st) (shiftRowsTable st)) := by
  rw [← shiftRowsGeneral_eq_table]
  rfl

/-- SHR.S answers the table's permutation. -/
theorem exec_shrS (st : Block) (s : State) :
    exec (.shrS st) s = .next (s.answerBlock (.shrS st) (shiftRowsTable st)) := rfl

/-- Settles O39: both forms answer the table's permutation. -/
theorem shiftRowsStrategiesAgree : Obligations.ShiftRowsStrategiesAgree := fun st s s' =>
  ⟨_, _, exec_shrG st s, exec_shrS st s', rfl, rfl⟩

/-- Settles O37: both forms answer the table's permutation, which rotates each row. -/
theorem shiftRowsRotatesEachRow : Obligations.ShiftRowsRotatesEachRow := fun st s =>
  ⟨⟨_, exec_shrG st s, rfl, fun r c => shiftRowsTable_row_col st r.isLt c.isLt⟩,
    ⟨_, exec_shrS st s, rfl, fun r c => shiftRowsTable_row_col st r.isLt c.isLt⟩⟩

/-! ### The laws of the permutation (R156) -/

/-- n applications rotate row r left by n·r. -/
theorem shiftRowsTable_iterate_lane (n : Nat) (f : Block) {k : Nat} (hk : k < 16) :
    (shiftRowsTable^[n] f)[k] = f[k % 4 + 4 * ((k / 4 + n * (k % 4)) % 4)] := by
  induction n generalizing k with
  | zero =>
    have hlane : k % 4 + 4 * ((k / 4 + 0 * (k % 4)) % 4) = k := by omega
    simp only [Function.iterate_zero, id, hlane]
  | succ n ih =>
    have hsource : k % 4 + 4 * ((k / 4 + k % 4) % 4) < 16 := by omega
    have hrow : (k % 4 + 4 * ((k / 4 + k % 4) % 4)) % 4 = k % 4 := by omega
    have hcol : (k % 4 + 4 * ((k / 4 + k % 4) % 4)) / 4 = (k / 4 + k % 4) % 4 := by omega
    have hturn : k / 4 + k % 4 + n * (k % 4) = k / 4 + (n + 1) * (k % 4) := by ring
    simp only [Function.iterate_succ_apply', shiftRowsTable_lane _ hk, ih hsource, hrow, hcol, Nat.mod_add_mod, hturn]

/-- Four applications rotate row r by 4r, a multiple of 4. -/
theorem shiftRowsTable_iterate_four (f : Block) : shiftRowsTable^[4] f = f := by
  ext k hk : 1
  have hlane : k % 4 + 4 * ((k / 4 + 4 * (k % 4)) % 4) = k := by omega
  simp only [shiftRowsTable_iterate_lane 4 f hk, hlane]

/-- Its third iterate undoes it from either side, since both composites are its fourth iterate. -/
theorem shiftRowsTable_bijective : Function.Bijective shiftRowsTable :=
  Function.bijective_iff_has_inverse.mpr
    ⟨shiftRowsTable^[3], shiftRowsTable_iterate_four, shiftRowsTable_iterate_four⟩

/-- Row r of the permuted State, as a list, is the row rotated left by r. -/
theorem shiftRowsTable_row_eq_rotate (f : Block) {r : Nat} (hr : r < 4) :
    (toMatrix (shiftRowsTable f))[r].toList = (toMatrix f)[r].toList.rotate r := by
  apply List.ext_getElem
  · simp
  · intro c hc _
    have hc' : c < 4 := by simpa using hc
    have hturn : (c + r) % 4 < 4 := by omega
    simp only [List.getElem_rotate, Vector.getElem_toList, Vector.length_toList, toMatrix_getElem _ r _ hr hc',
      toMatrix_getElem _ r _ hr hturn, shiftRowsTable_row_col f hr hc']

/-- Lanes move and no byte is altered, so an operation lane by lane can be done before or after. -/
theorem shiftRowsTable_zipWith (op : Byte → Byte → Byte) (p q : Block) :
    shiftRowsTable (Vector.zipWith op p q) = Vector.zipWith op (shiftRowsTable p) (shiftRowsTable q) := by
  ext k hk : 1
  simp only [shiftRowsTable_lane _ hk, Vector.getElem_zipWith]

theorem shiftRowsTable_map (g : Byte → Byte) (f : Block) : shiftRowsTable (f.map g) = (shiftRowsTable f).map g := by
  ext k hk : 1
  simp only [shiftRowsTable_lane _ hk, Vector.getElem_map]

/-- A row keeps its bytes: a rotation is a permutation of the list. -/
theorem shiftRowsTable_row_perm (f : Block) {r : Nat} (hr : r < 4) :
    List.Perm (toMatrix (shiftRowsTable f))[r].toList (toMatrix f)[r].toList := by
  rw [shiftRowsTable_row_eq_rotate f hr]
  exact List.rotate_perm _ r

/-- Settles O40: each row is rotated left by its index, so a row keeps its bytes and four turns come full circle. -/
theorem shiftRowsPermutationLaws : Obligations.ShiftRowsPermutationLaws :=
  ⟨shiftRowsTable_bijective, shiftRowsTable_iterate_four, fun f r => shiftRowsTable_row_perm f r.isLt,
    shiftRowsTable_zipWith (· ^^^ ·), shiftRowsTable_map, shiftRowsTable_iterate_four⟩

end Sys2Proof.Machine

/-! ## Column mixing (43_mix_columns.md) -/

namespace Sys2Proof.Machine

/-- Settles O41: the rows and the sixteen entries of the table. -/
theorem mdsIsCirculant : Obligations.MdsIsCirculant := ⟨rfl, rfl, rfl, rfl, by decide⟩

/-! ### XOR sums rearranged -/

theorem xor_rotate {w : Nat} (p q x y : BitVec w) : p ^^^ q ^^^ x ^^^ y = q ^^^ x ^^^ y ^^^ p := by ac_rfl

theorem xor_left_comm {w : Nat} (x y z : BitVec w) : x ^^^ (y ^^^ z) = y ^^^ (x ^^^ z) := by ac_rfl

theorem xor_xor_cancel_left {w : Nat} (x y : BitVec w) : x ^^^ (x ^^^ y) = y := by
  rw [← BitVec.xor_assoc, BitVec.xor_self, BitVec.zero_xor]

/-! ### The column transform with doublings (R171) -/

theorem two_gmul (v : Byte) : gmul 2 v = xtime v := by rw [gmul_comm, gmul_two]

/-- 3 is 2 XOR 1. -/
theorem three_gmul (v : Byte) : gmul 3 v = xtime v ^^^ v := by
  have hthree : (3 : Byte) = 2 ^^^ 1 := by decide
  rw [hthree, gmul_xor_left, two_gmul, one_gmul]

/-- The matrix is circulant (R170): every row is the first row's sum, read from the row's own lane on. -/
theorem mixColumn_getElem_eq_gmul (a : Column) (r : Fin 4) :
    (mixColumn a)[r] = gmul 2 a[r] ^^^ gmul 3 a[r + 1] ^^^ gmul 1 a[r + 2] ^^^ gmul 1 a[r + 3] := by
  fin_cases r
  · exact mixColumn_row0 a
  · exact (mixColumn_row1 a).trans (xor_rotate ..)
  · exact (mixColumn_row2 a).trans ((xor_rotate ..).trans (xor_rotate ..))
  · exact (mixColumn_row3 a).trans (xor_rotate ..).symm

/-- One doubling serves both coefficients 2 and 3. -/
theorem mixColumn_getElem (a : Column) (r : Fin 4) :
    (mixColumn a)[r] = xtime (a[r] ^^^ a[r + 1]) ^^^ (a[r + 1] ^^^ a[r + 2] ^^^ a[r + 3]) := by
  rw [mixColumn_getElem_eq_gmul, two_gmul, three_gmul, one_gmul, one_gmul, xorLinear_xtime]
  ac_rfl

/-! ### The laws of the column transform (R174) -/

theorem column_ext {a b : Column} (h : ∀ r : Fin 4, a[r] = b[r]) : a = b := Vector.ext fun r hr => h ⟨r, hr⟩

/-- Additivity, lane by lane: doubling is additive. -/
theorem mixColumn_xor (a b : Column) :
    mixColumn (Vector.zipWith (· ^^^ ·) a b) = Vector.zipWith (· ^^^ ·) (mixColumn a) (mixColumn b) := by
  refine column_ext fun r => ?_
  have hlane : ∀ (x y : Column) (k : Fin 4), (Vector.zipWith (· ^^^ ·) x y)[k] = x[k] ^^^ y[k] :=
    fun x y k => Vector.getElem_zipWith k.isLt
  simp only [hlane, mixColumn_getElem, xorLinear_xtime _ _]
  ac_rfl

/-- Two applications: 5 times the lane, 4 times the lane opposite, the other two cancelled. -/
theorem mixColumn_mixColumn_getElem (a : Column) (r : Fin 4) :
    (mixColumn (mixColumn a))[r] = xtime (xtime (a[r] ^^^ a[r + 2])) ^^^ a[r] := by
  simp only [mixColumn_getElem, xorLinear_xtime _ _, add_assoc, Fin.reduceAdd, add_zero]
  generalize a[r] = p, a[r + 1] = q, a[r + 2] = x, a[r + 3] = y
  simp only [BitVec.xor_comm, xor_left_comm, BitVec.xor_assoc, xor_xor_cancel_left]

/-- Four applications: 5 times 5 plus 4 times 4 is 1 for the lane itself, 5 times 4 twice is 0 for the lane opposite. -/
theorem mixColumn_iterate_four (a : Column) : mixColumn^[4] a = a := by
  refine column_ext fun r => ?_
  change (mixColumn (mixColumn (mixColumn (mixColumn a))))[r] = a[r]
  simp only [mixColumn_mixColumn_getElem, xorLinear_xtime _ _, add_assoc, Fin.reduceAdd, add_zero]
  generalize a[r] = p, a[r + 2] = x
  simp only [BitVec.xor_comm, xor_left_comm, BitVec.xor_assoc, BitVec.xor_self, BitVec.xor_zero]

/-! ### Column by column (R172, R173) -/

@[simp] theorem columnOf_getElem (f : Block) (c : Fin 4) {r : Nat} (hr : r < 4) :
    (columnOf f c)[r] = f[4 * c.val + r] := by
  simp [columnOf]

/-- Lane 4c + r of the mixed State is row r of its column c mixed. -/
theorem mixColumns_lane (f : Block) (c : Fin 4) {r : Nat} (hr : r < 4) :
    (mixColumns f)[4 * c.val + r] = (mixColumn (columnOf f c))[r] := by
  have hcol : (4 * c.val + r) / 4 = c.val := by omega
  have hrow : (4 * c.val + r) % 4 = r := by omega
  simp only [mixColumns_getElem f (4 * c.val + r) (by omega), hcol, hrow, Fin.eta]

theorem columnOf_mixColumns (f : Block) (c : Fin 4) : columnOf (mixColumns f) c = mixColumn (columnOf f c) :=
  Vector.ext fun _ hr => (columnOf_getElem _ c hr).trans (mixColumns_lane f c hr)

/-- Lane k is row k mod 4 of column k / 4, so the columns give the State. -/
theorem block_ext_columnOf {f g : Block} (h : ∀ c, columnOf f c = columnOf g c) : f = g := by
  ext k hk : 1
  have hlane : 4 * (k / 4) + k % 4 = k := by omega
  have hrow : (columnOf f ⟨k / 4, by omega⟩)[k % 4] = (columnOf g ⟨k / 4, by omega⟩)[k % 4] := by rw [h]
  simpa only [columnOf_getElem, hlane] using hrow

theorem columnOf_zipWith (op : Byte → Byte → Byte) (f g : Block) (c : Fin 4) :
    columnOf (Vector.zipWith op f g) c = Vector.zipWith op (columnOf f c) (columnOf g c) := by
  ext r hr : 1
  simp only [columnOf_getElem, Vector.getElem_zipWith]

/-- MIXC answers the State mixed. -/
theorem exec_mixc (st : Block) (s : State) :
    exec (.mixc st) s = .next (s.answerBlock (.mixc st) (mixColumns st)) := rfl

/-- Settles O42: each lane is a row of its column mixed, with 2 and 3 as the doublings. -/
theorem mixcMixesEachColumn : Obligations.MixcMixesEachColumn := by
  refine fun st s => ⟨_, exec_mixc st s, rfl, fun c => ?_⟩
  refine ⟨(mixColumns_lane st c (r := 0) (by decide)).trans ?_, (mixColumns_lane st c (r := 1) (by decide)).trans ?_,
    (mixColumns_lane st c (r := 2) (by decide)).trans ?_, (mixColumns_lane st c (r := 3) (by decide)).trans ?_⟩ <;>
    simp only [mixColumn_row0, mixColumn_row1, mixColumn_row2, mixColumn_row3, two_gmul, three_gmul, one_gmul,
      columnOf_getElem, Nat.add_zero]

/-- Settles O43: column c of the mixed State is column c mixed. -/
theorem columnsAreIndependent : Obligations.ColumnsAreIndependent := by
  intro f g c h
  rw [columnOf_mixColumns, h, columnOf_mixColumns]

/-! ### The laws on the State (R174) -/

theorem mixColumns_xor (p q : Block) :
    mixColumns (Vector.zipWith (· ^^^ ·) p q) = Vector.zipWith (· ^^^ ·) (mixColumns p) (mixColumns q) := by
  refine block_ext_columnOf fun c => ?_
  rw [columnOf_mixColumns, columnOf_zipWith, columnOf_zipWith, mixColumn_xor, columnOf_mixColumns, columnOf_mixColumns]

theorem columnOf_iterate_mixColumns (n : Nat) (f : Block) (c : Fin 4) :
    columnOf (mixColumns^[n] f) c = mixColumn^[n] (columnOf f c) :=
  Function.Semiconj.iterate_right (f := (columnOf · c)) (fun g => columnOf_mixColumns g c) n f

theorem mixColumns_iterate_four (f : Block) : mixColumns^[4] f = f :=
  block_ext_columnOf fun c => by rw [columnOf_iterate_mixColumns, mixColumn_iterate_four]

/-- Its third iterate undoes it from either side, since both composites are its fourth iterate. -/
theorem mixColumns_bijective : Function.Bijective mixColumns :=
  Function.bijective_iff_has_inverse.mpr ⟨mixColumns^[3], mixColumns_iterate_four, mixColumns_iterate_four⟩

/-- Settles O44: additivity and the order four, column by column, and the images of one column. -/
theorem mixColumnsLaws : Obligations.MixColumnsLaws :=
  ⟨mixColumns_xor, mixColumns_bijective, mixColumns_iterate_four, mixColumns_iterate_four, by decide, by decide,
    by decide, by decide⟩

end Sys2Proof.Machine

/-! ## Exceptions (60_exceptions.md): the boundary conversions, and what every faulted input does again -/

namespace Sys2Proof.Machine

/-! ### The conversion a Call runs (R74) -/

/-- A one-byte Call stops exactly where its operand's conversion does. -/
theorem callByte_error_iff {op : Byte → Instr} {x : CallerValue} {e : CallStop} :
    callByte op x = .error e ↔ toByte .A x = .error e := by
  cases h : toByte .A x <;> simp [callByte, h]

theorem callState_ok {x : CallerValue} {st : Block} (h : toBlock x = .ok st) (op : Block → Instr) :
    callState op x = .ok (op st) := by
  rw [callState, h]

/-- A State Call stops exactly where its operand's conversion does. -/
theorem callState_error_iff {op : Block → Instr} {x : CallerValue} {e : CallStop} :
    callState op x = .error e ↔ toBlock x = .error e := by
  cases h : toBlock x <;> simp [callState, h]

/-- The five one-byte operations convert their operand alike, as A. -/
theorem toInstr_of_byteCall {c : CallerValue → Call}
    (hc : c ∈ [Call.gfDbl, Call.affFwdG, Call.affFwdS, Call.affInvG, Call.affInvS]) :
    ∃ op, ∀ x, (c x).toInstr = callByte op x := by
  simp only [List.mem_cons, List.not_mem_nil, or_false] at hc
  rcases hc with rfl | rfl | rfl | rfl | rfl <;> exact ⟨_, fun _ => rfl⟩

/-- The three State operations convert their operand alike, as S. -/
theorem toInstr_of_stateCall {c : CallerValue → Call} (hc : c ∈ [Call.shrG, Call.shrS, Call.mixc]) :
    ∃ op, ∀ x, (c x).toInstr = callState op x := by
  simp only [List.mem_cons, List.not_mem_nil, or_false] at hc
  rcases hc with rfl | rfl | rfl <;> exact ⟨_, fun _ => rfl⟩

theorem toInstr_byteCall_error {c : CallerValue → Call}
    (hc : c ∈ [Call.gfDbl, Call.affFwdG, Call.affFwdS, Call.affInvG, Call.affInvS]) {x : CallerValue} {e : CallStop}
    (h : toByte .A x = .error e) : (c x).toInstr = .error e := by
  obtain ⟨op, hop⟩ := toInstr_of_byteCall hc
  rw [hop, callByte_error_iff.mpr h]

theorem toInstr_stateCall_error {c : CallerValue → Call} (hc : c ∈ [Call.shrG, Call.shrS, Call.mixc]) {x : CallerValue}
    {e : CallStop} (h : toBlock x = .error e) : (c x).toInstr = .error e := by
  obtain ⟨op, hop⟩ := toInstr_of_stateCall hc
  rw [hop, callState_error_iff.mpr h]

/-- GF.MUL converts x first: its error is the Call's, whatever y is (R208, D12; log 13). -/
theorem toInstr_gfMul_error_x {x : CallerValue} {e : CallStop} (h : toByte .A x = .error e) (y : CallerValue) :
    (Call.gfMul x y).toInstr = .error e := by
  rw [Call.toInstr, h]

theorem toInstr_gfMul_error_y {x y : CallerValue} {a : Byte} {e : CallStop} (hx : toByte .A x = .ok a)
    (hy : toByte .B y = .error e) : (Call.gfMul x y).toInstr = .error e := by
  simp only [Call.toInstr, hx, hy]

/-- A Call stops only where the conversion of one of its operands does. -/
theorem toInstr_error {c : Call} {e : CallStop} (h : c.toInstr = .error e) :
    (∃ operand x, toByte operand x = .error e) ∨ ∃ x, toBlock x = .error e := by
  cases c with
  | gfDbl | affFwdG | affFwdS | affInvG | affInvS => exact .inl ⟨_, _, callByte_error_iff.mp h⟩
  | shrG | shrS | mixc => exact .inr ⟨_, callState_error_iff.mp h⟩
  | gfMul x y =>
    simp only [Call.toInstr] at h
    split at h
    · next hx => cases h; exact .inl ⟨_, x, hx⟩
    · split at h
      · next hy => cases h; exact .inl ⟨_, y, hy⟩
      · cases h

/-! ### ToByte (R202) -/

theorem toByte_of_range {v : Int} (h : 0 ≤ v ∧ v ≤ 255) (operand : Operand) :
    toByte operand (.int v) = .ok (byteOfInt v) := by
  rw [toByte_int, if_pos h]

theorem toByte_of_not_range {v : Int} (h : ¬(0 ≤ v ∧ v ≤ 255)) (operand : Operand) :
    toByte operand (.int v) = .error (.fault (.invalidByte operand v)) := by
  rw [toByte_int, if_neg h]

/-- What is no integer is refused, for each operand (D23). -/
theorem toByte_notNumeric {rows : List (List Int)} {xs : List Int} {x : CallerValue}
    (hx : x ∈ [CallerValue.nested rows, .flat xs, .other]) (operand : Operand) :
    toByte operand x = .error .notNumeric := by
  simp only [List.mem_cons, List.not_mem_nil, or_false] at hx
  rcases hx with rfl | rfl | rfl <;> rfl

/-- Settles O45: the two branches of ToByte, carried through the Calls that convert A, or B after A (log 13). -/
theorem toByteNeverTruncates : Obligations.ToByteNeverTruncates :=
  ⟨fun operand v hv => ⟨byteOfInt v, toByte_of_range hv operand, byteOfInt_toNat hv⟩,
    fun operand _ hv => toByte_of_not_range hv operand,
    fun _ _ _ => ⟨rfl, rfl, rfl⟩,
    fun _ hv => ⟨fun _ hc => toInstr_byteCall_error hc (toByte_of_not_range hv .A),
      toInstr_gfMul_error_x (toByte_of_not_range hv .A),
      fun _ hx => toInstr_gfMul_error_y (toByte_of_range hx .A) (toByte_of_not_range hv .B)⟩⟩

/-! ### ToState (R203) -/

theorem isFourByFour_iff (rows : List (List Int)) :
    isFourByFour rows = true ↔ rows.length = 4 ∧ ∀ row ∈ rows, row.length = 4 := by
  simp [isFourByFour]

theorem toBlock_nested {rows : List (List Int)} (hrows : rows.length = 4) (hcols : ∀ row ∈ rows, row.length = 4) :
    toBlock (.nested rows) = blockOfFlat (flatOfRows rows) := by
  rw [toBlock, if_pos ((isFourByFour_iff rows).mpr ⟨hrows, hcols⟩)]

theorem toBlock_nested_dimension {rows : List (List Int)}
    (h : ¬(rows.length = 4 ∧ ∀ row ∈ rows, row.length = 4)) :
    toBlock (.nested rows) = .error (.fault (.dimension (.nested (rows.map List.length)))) := by
  rw [toBlock, if_neg (mt (isFourByFour_iff rows).mp h)]

theorem toBlock_flat {xs : List Int} (hlen : xs.length = 16) : toBlock (.flat xs) = blockOfFlat xs := by
  rw [toBlock, if_pos hlen]

theorem toBlock_flat_dimension {xs : List Int} (hlen : xs.length ≠ 16) :
    toBlock (.flat xs) = .error (.fault (.dimension (.flat xs.length))) := by
  rw [toBlock, if_neg hlen]

/-- Element k of the flat order is `L[k mod 4][k div 4]`. -/
theorem flatOfRows_getElem? {rows : List (List Int)} (hrows : rows.length = 4)
    (hcols : ∀ row ∈ rows, row.length = 4) {k : Nat} (hk : k < 16) :
    (flatOfRows rows)[k]? = rows[k % 4]?.bind (·[k / 4]?) := by
  have hr : k % 4 < rows.length := by omega
  have hc : k / 4 < rows[k % 4].length := by
    rw [hcols _ (List.getElem_mem hr)]
    omega
  simp [flatOfRows, hk, hr, hc]

/-- The flat order holds no element that the rows do not. -/
theorem exists_mem_row_of_mem_flatOfRows {rows : List (List Int)} (hrows : rows.length = 4)
    (hcols : ∀ row ∈ rows, row.length = 4) {v : Int} (hv : v ∈ flatOfRows rows) : ∃ row ∈ rows, v ∈ row := by
  obtain ⟨k, hk⟩ := List.mem_iff_getElem?.mp hv
  have hlt : k < 16 := by
    obtain ⟨hlt, -⟩ := List.getElem?_eq_some_iff.mp hk
    rwa [flatOfRows_length] at hlt
  rw [flatOfRows_getElem? hrows hcols hlt, Option.bind_eq_some_iff] at hk
  obtain ⟨row, hrow, hget⟩ := hk
  exact ⟨row, List.mem_of_getElem? hrow, List.mem_of_getElem? hget⟩

/-- The bad element at the least index is the one found: what is found is bad, with none before it. -/
theorem firstBadFrom_eq_some {xs : List Int} {n : Nat} {v : Int} (hget : xs[n]? = some v) (hv : ¬(0 ≤ v ∧ v ≤ 255))
    (hbefore : ∀ j < n, ∀ u, xs[j]? = some u → 0 ≤ u ∧ u ≤ 255) (k : Nat) :
    firstBadFrom k xs = some (k + n, v) := by
  cases hfound : firstBadFrom k xs with
  | none => exact absurd ((firstBadFrom_none k xs).mp hfound v (List.mem_of_getElem? hget)) hv
  | some found =>
    obtain ⟨j, u⟩ := found
    obtain ⟨m, rfl, hgetm, hu, hbeforem⟩ := firstBadFrom_some hfound
    obtain hlt | rfl | hgt := Nat.lt_trichotomy m n
    · exact absurd (hbefore m hlt u hgetm) hu
    · rw [Option.some.inj (hget.symm.trans hgetm)]
    · exact absurd (hbeforem n hgt v hget) hv

/-- Sixteen elements in range convert, each to the byte of its value. -/
theorem blockOfFlat_ok {xs : List Int} (hlen : xs.length = 16) (hrange : ∀ v ∈ xs, 0 ≤ v ∧ v ≤ 255) :
    ∃ st : Block, blockOfFlat xs = .ok st ∧ ∀ k : Fin 16, xs[k.val]? = some ((st[k]).toNat : Int) := by
  refine ⟨Vector.ofFn fun k => byteOfInt (xs.getD k.val 0), ?_, fun k => ?_⟩
  · rw [blockOfFlat, (firstBadFrom_none 0 xs).mpr hrange]
  · have hk : k.val < xs.length := by omega
    simp [hk, byteOfInt_toNat (hrange _ (List.getElem_mem hk))]

/-- The element out of range at the least k is the one reported. -/
theorem blockOfFlat_invalidByte {xs : List Int} {k : Nat} {v : Int} (hget : xs[k]? = some v)
    (hv : ¬(0 ≤ v ∧ v ≤ 255)) (hbefore : ∀ j < k, ∀ u, xs[j]? = some u → 0 ≤ u ∧ u ≤ 255) :
    blockOfFlat xs = .error (.fault (.invalidByte (.S k) v)) := by
  rw [blockOfFlat, firstBadFrom_eq_some hget hv hbefore, Nat.zero_add]

/-- A 4×4 list in range converts: lane r + 4c is the byte of `L[r][c]`. -/
theorem toBlock_nested_ok {rows : List (List Int)} (hrows : rows.length = 4) (hcols : ∀ row ∈ rows, row.length = 4)
    (hrange : ∀ row ∈ rows, ∀ v ∈ row, 0 ≤ v ∧ v ≤ 255) :
    ∃ st : Block, toBlock (.nested rows) = .ok st ∧
      ∀ r c : Fin 4, (rows[r.val]?.bind (·[c.val]?)) = some ((st[r.val + 4 * c.val]).toNat : Int) := by
  obtain ⟨st, hst, hlane⟩ := blockOfFlat_ok (flatOfRows_length rows) fun v hv => by
    obtain ⟨row, hrow, hmem⟩ := exists_mem_row_of_mem_flatOfRows hrows hcols hv
    exact hrange row hrow v hmem
  refine ⟨st, (toBlock_nested hrows hcols).trans hst, fun r c => ?_⟩
  have hk : r.val + 4 * c.val < 16 := by omega
  have hrow : (r.val + 4 * c.val) % 4 = r.val := by omega
  have hcol : (r.val + 4 * c.val) / 4 = c.val := by omega
  have hget := flatOfRows_getElem? hrows hcols hk
  rw [hrow, hcol] at hget
  exact hget.symm.trans (hlane ⟨r.val + 4 * c.val, hk⟩)

/-- In a 4×4 list the element out of range at the least flat index is the one reported. -/
theorem toBlock_nested_invalidByte {rows : List (List Int)} {k : Nat} {v : Int} (hrows : rows.length = 4)
    (hcols : ∀ row ∈ rows, row.length = 4) (hk : k < 16) (hget : (rows[k % 4]?.bind (·[k / 4]?)) = some v)
    (hv : ¬(0 ≤ v ∧ v ≤ 255))
    (hbefore : ∀ j < k, ∀ u, (rows[j % 4]?.bind (·[j / 4]?)) = some u → 0 ≤ u ∧ u ≤ 255) :
    toBlock (.nested rows) = .error (.fault (.invalidByte (.S k) v)) := by
  rw [toBlock_nested hrows hcols]
  refine blockOfFlat_invalidByte ((flatOfRows_getElem? hrows hcols hk).trans hget) hv fun j hj u hu => ?_
  rw [flatOfRows_getElem? hrows hcols (hj.trans hk)] at hu
  exact hbefore j hj u hu

/-- Settles O46: the shape is decided first, then the elements in flat order; the State Calls convert S so. -/
theorem toStateShapesAndRanges : Obligations.ToStateShapesAndRanges := by
  refine ⟨fun _ => toBlock_nested_ok, fun _ hlen hrange => ?_, fun _ => toBlock_nested_dimension,
    fun _ => toBlock_flat_dimension, fun _ k _ hrows hcols => toBlock_nested_invalidByte hrows hcols k.isLt,
    fun _ _ _ hlen hget hv hbefore => ?_, fun x => ⟨fun st h => ?_, fun e h => ?_⟩⟩
  · rw [toBlock_flat hlen]
    exact blockOfFlat_ok hlen hrange
  · rw [toBlock_flat hlen]
    exact blockOfFlat_invalidByte hget hv hbefore
  · exact ⟨callState_ok h .shrG, callState_ok h .shrS, callState_ok h .mixc⟩
  · exact ⟨callState_error_iff.mpr h, callState_error_iff.mpr h, callState_error_iff.mpr h⟩

/-! ### Values of the wrong kind (D23) -/

/-- The step on a Call that meets a value of the wrong kind is refused. -/
theorem step_call_notNumeric {s : State} {c : Call} {rest : List HostInput} (hp : s.pending = .call c :: rest)
    (hc : c.toInstr = .error .notNumeric) : step s = .refused .notNumeric := by
  rw [step_cons hp]
  exact runCall_notNumeric hc _

theorem toBlock_notNumeric {v : Int} {x : CallerValue} (hx : x ∈ [CallerValue.int v, .other]) :
    toBlock x = .error .notNumeric := by
  simp only [List.mem_cons, List.not_mem_nil, or_false] at hx
  rcases hx with rfl | rfl <;> rfl

/-- Settles O49: the operand's conversion refuses the value, and so the Call; GF.MUL converts A before B (log 13). -/
theorem nonNumbersAreRefused : Obligations.NonNumbersAreRefused := fun _ _ _ _ _ _ y =>
  ⟨fun _ hb =>
    ⟨fun _ hop hp => step_call_notNumeric hp (toInstr_byteCall_error hop (toByte_notNumeric hb .A)),
      fun hp => step_call_notNumeric hp (toInstr_gfMul_error_x (toByte_notNumeric hb .A) y),
      fun hx hp => step_call_notNumeric hp (toInstr_gfMul_error_y (toByte_of_range hx .A) (toByte_notNumeric hb .B))⟩,
    fun _ hst _ hop hp => step_call_notNumeric hp (toInstr_stateCall_error hop (toBlock_notNumeric hst))⟩

/-! ### The codes a boundary error can have (R201 to R203, R206) -/

/-- ToByte raises INVALID_BYTE alone. -/
theorem toByte_fault_code {operand : Operand} {x : CallerValue} {info : FaultInfo}
    (h : toByte operand x = .error (.fault info)) : info.code = 1 := by
  cases x with
  | int v =>
    rw [toByte_int] at h
    split at h
    · cases h
    · cases h; rfl
  | nested | flat | other => cases h

theorem blockOfFlat_fault_code {xs : List Int} {info : FaultInfo} (h : blockOfFlat xs = .error (.fault info)) :
    info.code = 1 := by
  rw [blockOfFlat] at h
  split at h
  · cases h; rfl
  · cases h

/-- ToState raises INVALID_BYTE or DIMENSION. -/
theorem toBlock_fault_code {x : CallerValue} {info : FaultInfo} (h : toBlock x = .error (.fault info)) :
    info.code = 1 ∨ info.code = 2 := by
  cases x with
  | nested rows =>
    by_cases hshape : rows.length = 4 ∧ ∀ row ∈ rows, row.length = 4
    · obtain ⟨hrows, hcols⟩ := hshape
      exact .inl (blockOfFlat_fault_code (toBlock_nested hrows hcols ▸ h))
    · rw [toBlock_nested_dimension hshape] at h; cases h; exact .inr rfl
  | flat xs =>
    by_cases hlen : xs.length = 16
    · exact .inl (blockOfFlat_fault_code (toBlock_flat hlen ▸ h))
    · rw [toBlock_flat_dimension hlen] at h; cases h; exact .inr rfl
  | int | other => cases h

/-- Settles O12: a legal word runs an instruction, and every instruction completes; an illegal one is recorded in a next
state (log 4); the conversions raise only their own two codes. -/
theorem legalCommandCompletes : Obligations.LegalCommandCompletes := by
  refine ⟨fun s w rest hp hop => ?_, fun s w rest hp hop => ?_, fun c info hc => ?_⟩
  · obtain ⟨i, -, -, hs⟩ := step_command_legal hp hop
    obtain ⟨r, hr, he⟩ := exec_completes i { s with pending := rest, cmd := some w }
    exact ⟨_, hs.trans he, hr, rfl, rfl⟩
  · exact ⟨_, step_command_illegal hp hop, rfl⟩
  · obtain ⟨operand, x, hx⟩ | ⟨x, hx⟩ := toInstr_error hc
    · exact .inl (toByte_fault_code hx)
    · exact toBlock_fault_code hx

/-! ### A faulted input faults again (R207) -/

/-- From every state the run answers with this fault recorded and its code as STATUS (R200). -/
def RaisesFromEveryState (run : State → Host.Outcome State Fault Refusal) (info : FaultInfo) : Prop :=
  ∀ s, ∃ t, run s = .next t ∧ t.outcomes = s.outcomes ++ [.fault info] ∧ t.rsp.status = info.code

/-- A command word that records a fault once is illegal, so it raises ILLEGAL_OP from every state. -/
theorem runCommand_raises_of_fault {w : CmdWord} {s t : State} {info : FaultInfo} (h : runCommand w s = .next t)
    (hfault : t.outcomes = s.outcomes ++ [.fault info]) : RaisesFromEveryState (runCommand w) info := by
  obtain ⟨r, -, rfl⟩ | ⟨op, hd, rfl⟩ := runCommand_next h
  · simp at hfault
  · obtain rfl : FaultInfo.illegalOp op = info := by simpa using hfault
    exact fun s' => ⟨_, runCommand_illegal hd s', rfl, rfl⟩

/-- An input that records a fault once does so from every state: decode and the boundary read no state. -/
theorem runInput_raises_of_fault {x : HostInput} {s t : State} {info : FaultInfo} (h : runInput x s = .next t)
    (hfault : t.outcomes = s.outcomes ++ [.fault info]) : RaisesFromEveryState (runInput x) info := by
  cases x with
  | command w => exact runCommand_raises_of_fault h hfault
  | call c =>
    rw [runInput] at h
    cases hc : c.toInstr with
    | ok i =>
      rw [runCall_ok hc] at h
      intro s'
      rw [runInput, runCall_ok hc]
      exact runCommand_raises_of_fault h hfault s'
    | error e =>
      cases e with
      | fault raised =>
        rw [runCall_fault hc] at h
        cases h
        obtain rfl : raised = info := by simpa using hfault
        exact fun s' => ⟨_, runCall_fault hc s', rfl, rfl⟩
      | notNumeric => rw [runCall_notNumeric hc] at h; cases h
  | reset => cases h; simp at hfault

/-- Settles O22: the input raises its fault from every state, the first one included, whose STATUS is so the code. -/
theorem retryFaultsAgain : Obligations.RetryFaultsAgain := by
  intro s s' t x rest rest' info hp hp' hstep hfault
  rw [step_cons hp] at hstep
  have hraises := runInput_raises_of_fault hstep hfault
  obtain ⟨u, hu, -, hstatus⟩ := hraises { s with pending := rest }
  obtain ⟨t', ht', hfault', hstatus'⟩ := hraises { s' with pending := rest' }
  obtain rfl : t = u := by simpa [hstep] using hu
  exact ⟨t', (step_cons hp').trans ht', hfault', hstatus'.trans hstatus.symm⟩

end Sys2Proof.Machine

/-! ## Reset asserted (70_reset_and_hazards.md) -/

namespace Sys2Proof.Machine

/-- A step on a reset input takes that input and answers with the reset response (R230, R232). -/
theorem step_reset {s : State} {rest : List HostInput} (hp : s.pending = .reset :: rest) :
    step s = .next (State.resetResponse { s with pending := rest }) := by
  rw [step_cons hp, runInput]

/-- Settles O16: the step answers with the reset response, which touches only the response word and the draw counter; that
the run's record and mark are kept is DEDUCED (log 12). -/
theorem resetInputFrame : Obligations.ResetInputFrame := by
  intro s rest hp
  exact ⟨_, step_reset hp, State.resetResponse_pending _, State.resetResponse_cmd _, State.resetResponse_outcomes _,
    State.resetResponse_faultMark _⟩

end Sys2Proof.Machine
